-- ==== Sys2Proof/Word.lean ====
section
/-! DEFINITION. The widths of the CHIP-8 core: bytes, 16-bit words, 4-bit register numbers, 12-bit addresses. -/

namespace Sys2Proof

/-- A byte: a general register, a memory cell, the field `byte` (10_state.md R22, R30; 30_encoding.md R71). -/
abbrev Byte := BitVec 8

/-- A 16-bit word: PC, I, a stack slot, a timer, an instruction word (10_state.md R25, R27, R28, R35; 30_encoding.md R70). -/
abbrev Word := BitVec 16

/-- A 4-bit field: a register number `x` or `y`, or the count `n` (30_encoding.md R71). -/
abbrev Nibble := BitVec 4

/-- A register number 0 to 15, as the fields `x` and `y` and `wait_reg` hold it (10_state.md R22, R37). -/
abbrev Reg := Nibble

/-- The 12-bit field `addr`, written nnn (30_encoding.md R71). -/
abbrev Addr := BitVec 12

end Sys2Proof
end

