-- ==== Sys2Proof/Config.lean ====
section
/-! DEFINITION. What an implementation fixes (the parameters of 00_scope.md R6 and R7), the moves the host makes, and the free values. -/

namespace Sys2Proof

/-- ZERO_GROUP_DECODE (30_encoding.md R74, decision D5). -/
inductive ZeroGroupDecode where
  | lowNibble
  | exact
  deriving DecidableEq, Repr

/-- SHIFT_VF_ORDER (42_alu.md R151, decision D7). -/
inductive ShiftVfOrder where
  | listedOrder
  | sequential
  | flagWins
  deriving DecidableEq, Repr

/-- FONT_WRITE_POLICY (20_memory.md R55, decision D10). -/
inductive FontWritePolicy where
  | fault
  | allow
  deriving DecidableEq, Repr

/-- KEY_INDEX_POLICY (41_control_flow.md R129, decision D12). -/
inductive KeyIndexPolicy where
  | fault
  | mask
  | notPressed
  deriving DecidableEq, Repr

/-- The parameters that 00_scope.md R7 says a model takes as an argument.
The types of `exec` and `step` are fixed by the host, so State carries this record; no instruction writes it (log 4). -/
structure Params where
  zeroGroupDecode : ZeroGroupDecode
  shiftVfOrder    : ShiftVfOrder
  /-- LEGACY_PARITY (42_alu.md R150, R154). -/
  legacyParity    : Bool
  fontWritePolicy : FontWritePolicy
  keyIndexPolicy  : KeyIndexPolicy
  /-- FONT_GLYPHS, glyph d at positions 5d to 5d + 4 (10_state.md R31). -/
  fontGlyphs      : Vector Byte 80
  /-- CYCLE_HZ, OPEN: `none` until the host chooses a rate (00_scope.md R15, decision D33). No rule reads it. -/
  cycleHz         : Option Nat
  deriving DecidableEq, Repr

namespace Machine

/-- The input record of one iteration (00_scope.md R12). Bit k of `keysIn` is 1 iff key k is held. -/
structure Ev where
  pauseToggle : Bool
  keysIn      : BitVec 16
  execDue     : Bool
  stepReq     : Bool
  timerDue    : Bool
  rndIn       : Byte
  deriving DecidableEq, Repr, Inhabited

/-- A move of the host: an iteration (00_scope.md R12), Reset or Load (R14), or a change of CYCLE_HZ (R15).
A ROM file that cannot be opened is `load none` (70_reset_and_hazards.md R256). -/
inductive HostOp where
  | iterate (ev : Ev)
  | reset
  | load (file : Option (List Byte))
  | setCycleHz (hz : Nat)
  deriving DecidableEq, Repr, Inhabited

end Machine

namespace Config

/-- PROG_BASE (00_scope.md R6). -/
def progBase : Nat := 0x200

/-- MEM_SIZE (00_scope.md R6). -/
def memSize : Nat := 4096

/-- FONT_SIZE, and with FONT_BASE = 0 the first address above the font region (00_scope.md R6). -/
def fontSize : Nat := 80

/-- FONT_BASE (00_scope.md R6, 90_conflicts.md C9). -/
def fontBase : Nat := 0

/-- MAX_ROM (00_scope.md R6). -/
def maxRom : Nat := memSize - progBase

/-- The conventional font of 10_state.md R31, glyphs 0 to 7, top row first.
PRESUMED: the spec marks these bytes as general knowledge, not in its source (log 5, unsafe). -/
def defaultGlyphsLow : List Byte :=
  [0xF0, 0x90, 0x90, 0x90, 0xF0] ++ [0x20, 0x60, 0x20, 0x20, 0x70] ++
  [0xF0, 0x10, 0xF0, 0x80, 0xF0] ++ [0xF0, 0x10, 0xF0, 0x10, 0xF0] ++
  [0x90, 0x90, 0xF0, 0x10, 0x10] ++ [0xF0, 0x80, 0xF0, 0x10, 0xF0] ++
  [0xF0, 0x80, 0xF0, 0x90, 0xF0] ++ [0xF0, 0x10, 0x20, 0x40, 0x40]

/-- The conventional font of 10_state.md R31, glyphs 8 to F. PRESUMED, as the glyphs 0 to 7 (log 5, unsafe). -/
def defaultGlyphsHigh : List Byte :=
  [0xF0, 0x90, 0xF0, 0x90, 0xF0] ++ [0xF0, 0x90, 0xF0, 0x10, 0xF0] ++
  [0xF0, 0x90, 0xF0, 0x90, 0x90] ++ [0xE0, 0x90, 0xE0, 0x90, 0xE0] ++
  [0xF0, 0x80, 0x80, 0x80, 0xF0] ++ [0xE0, 0x90, 0x90, 0x90, 0xE0] ++
  [0xF0, 0x80, 0xF0, 0x80, 0xF0] ++ [0xF0, 0x80, 0xF0, 0x80, 0x80]

/-- Byte `k` of the default Font Table (10_state.md R31); 0 past its 80 bytes. -/
def defaultFontByte (k : Nat) : Byte := (defaultGlyphsLow ++ defaultGlyphsHigh).getD k 0

/-- The defaults of 00_scope.md R7. CYCLE_HZ has no default (log 10). -/
def defaults : Params where
  zeroGroupDecode := .lowNibble
  shiftVfOrder    := .listedOrder
  legacyParity    := false
  fontWritePolicy := .fault
  keyIndexPolicy  := .fault
  fontGlyphs      := Vector.ofFn fun k : Fin 80 => defaultFontByte k.val
  cycleHz         := none

/-- A free value: the host's moves once the list of given moves is used up, in their order.
The spec leaves every move to the host and admits every sequence of them (40_execution_cycle.md R111, R112), so nothing constrains
it: no strobe recurs, and none stays away, but by a premise (log 2). -/
opaque freeOp : Nat → Machine.HostOp

/-- A free value: a random byte where the host's current move gives none (00_scope.md R18, decision D32, log 3). -/
opaque freeRandom : Nat → Byte

end Config
end Sys2Proof
end

