-- ==== Sys2Proof/Syntax.lean ====
section
/-! DEFINITION. The instructions: one constructor per row of spec/opcode_table.json, in the order of 30_encoding.md R84. -/

namespace Sys2Proof

/-- The instruction set of 30_encoding.md R84 with its UNHANDLED row.
A field an instruction ignores (30_encoding.md R72) is kept as an argument, so that a word and its instruction determine each
other; the meanings do not read it. The argument names are the field names of R71: `nn` stands for the ignored bits 11 to 4. -/
inductive Instr where
  /-- 0nn0, 44_display.md R191. -/
  | cls (nn : Byte)
  /-- 0nnE, 41_control_flow.md R121. -/
  | ret (nn : Byte)
  /-- 1nnn, 41_control_flow.md R122. -/
  | jp (addr : Addr)
  /-- 2nnn, 41_control_flow.md R123. -/
  | call (addr : Addr)
  /-- 3xkk, 41_control_flow.md R124. -/
  | seImm (x : Reg) (kk : Byte)
  /-- 4xkk, 41_control_flow.md R125. -/
  | sneImm (x : Reg) (kk : Byte)
  /-- 5xyn, 41_control_flow.md R126; n is ignored. -/
  | seReg (x y : Reg) (n : Nibble)
  /-- 6xkk, 42_alu.md R141. -/
  | ldImm (x : Reg) (kk : Byte)
  /-- 7xkk, 42_alu.md R142. -/
  | addImm (x : Reg) (kk : Byte)
  /-- 8xy0, 42_alu.md R143. -/
  | ldReg (x y : Reg)
  /-- 8xy1, 42_alu.md R144. -/
  | orReg (x y : Reg)
  /-- 8xy2, 42_alu.md R145. -/
  | andReg (x y : Reg)
  /-- 8xy3, 42_alu.md R146. -/
  | xorReg (x y : Reg)
  /-- 8xy4, 42_alu.md R147. -/
  | addReg (x y : Reg)
  /-- 8xy5, 42_alu.md R148, R150. -/
  | subReg (x y : Reg)
  /-- 8xy6, 42_alu.md R151, R152; y is ignored. -/
  | shr (x y : Reg)
  /-- 8xy7, 42_alu.md R149, R150. -/
  | subnReg (x y : Reg)
  /-- 8xyE, 42_alu.md R151, R153, R154; y is ignored. -/
  | shl (x y : Reg)
  /-- 9xyn, 41_control_flow.md R127; n is ignored. -/
  | sneReg (x y : Reg) (n : Nibble)
  /-- Annn, 43_index_memory.md R170. -/
  | ldI (addr : Addr)
  /-- Bnnn, 41_control_flow.md R128. -/
  | jpV0 (addr : Addr)
  /-- Cxkk, 42_alu.md R155. -/
  | rnd (x : Reg) (kk : Byte)
  /-- Dxyn, 44_display.md R192. -/
  | drw (x y : Reg) (n : Nibble)
  /-- Ex9E, 41_control_flow.md R130. -/
  | skp (x : Reg)
  /-- ExA1, 41_control_flow.md R131. -/
  | sknp (x : Reg)
  /-- Fx07, 45_timer_key.md R200. -/
  | ldVxDt (x : Reg)
  /-- Fx0A, 45_timer_key.md R201. -/
  | ldVxK (x : Reg)
  /-- Fx15, 45_timer_key.md R202. -/
  | ldDtVx (x : Reg)
  /-- Fx18, 45_timer_key.md R203. -/
  | ldStVx (x : Reg)
  /-- Fx1E, 43_index_memory.md R171. -/
  | addI (x : Reg)
  /-- Fx29, 43_index_memory.md R172. -/
  | ldF (x : Reg)
  /-- Fx33, 43_index_memory.md R173. -/
  | ldB (x : Reg)
  /-- Fx55, 43_index_memory.md R174. -/
  | storeRegs (x : Reg)
  /-- Fx65, 43_index_memory.md R175. -/
  | loadRegs (x : Reg)
  /-- Any other word, 40_execution_cycle.md R97; it carries the word itself. -/
  | unhandled (w : Word)
  deriving DecidableEq, Repr

end Sys2Proof
end

