-- ==== Sys2Proof/WellFormed.lean ====
section
/-! DEFINITION. Which terms of Instr are instructions of the machine, under a setting of ZERO_GROUP_DECODE.
The widths of the fields are in their types; two checks are left: the word of an unhandled instruction matches no row of the
opcode map, and under EXACT only the word 0x0000 is CLS. -/

namespace Sys2Proof

/-- The words that match no documented case: the table of 30_encoding.md R79, group by group, with `op` = w[15:12],
`nn` = w[11:4], `n` = w[3:0] and `byte` = w[7:0]. -/
def isUnhandledWord (z : ZeroGroupDecode) (w : Word) : Bool :=
  let op := w.toNat / 4096
  let nn := w.toNat / 16 % 256
  let n := w.toNat % 16
  let byte := w.toNat % 256
  if op = 0x0 then
    match z with
    | .lowNibble => !([0x0, 0xE].contains n)
    | .exact => n != 0xE && !(nn == 0 && n == 0)
  else if op = 0x8 then [0x8, 0x9, 0xA, 0xB, 0xC, 0xD, 0xF].contains n
  else if op = 0xE then !([0x9E, 0xA1].contains byte)
  else if op = 0xF then !([0x07, 0x0A, 0x15, 0x18, 0x1E, 0x29, 0x33, 0x55, 0x65].contains byte)
  else false

/-- Under EXACT the word 0x0000 alone is CLS (30_encoding.md R74). -/
def clsFieldOk (z : ZeroGroupDecode) (nn : Byte) : Bool :=
  match z with
  | .lowNibble => true
  | .exact => nn == 0

/-- A term is well formed if some word decodes to it. -/
def Instr.wellFormed (z : ZeroGroupDecode) : Instr → Bool
  | .cls nn => clsFieldOk z nn
  | .unhandled w => isUnhandledWord z w
  | .ret _ | .jp _ | .call _ | .seImm _ _ | .sneImm _ _ | .seReg _ _ _ | .ldImm _ _ | .addImm _ _
  | .ldReg _ _ | .orReg _ _ | .andReg _ _ | .xorReg _ _ | .addReg _ _ | .subReg _ _ | .shr _ _ | .subnReg _ _ | .shl _ _
  | .sneReg _ _ _ | .ldI _ | .jpV0 _ | .rnd _ _ | .drw _ _ _ | .skp _ | .sknp _
  | .ldVxDt _ | .ldVxK _ | .ldDtVx _ | .ldStVx _ | .addI _ | .ldF _ | .ldB _ | .storeRegs _ | .loadRegs _ => true

end Sys2Proof
end

