-- ==== Sys2Proof/Decode.lean ====
section
/-! DEFINITION. The decoder (30_encoding.md R70 to R80, R84), the encoder, and the opcode map as data. -/

namespace Sys2Proof

/-! ## Fields (30_encoding.md R71) -/

/-- The top nibble, w[15:12]. -/
def opField (w : Word) : Nibble := w.extractLsb' 12 4
/-- The field `x`, w[11:8]. -/
def xField (w : Word) : Reg := w.extractLsb' 8 4
/-- The field `y`, w[7:4]. -/
def yField (w : Word) : Reg := w.extractLsb' 4 4
/-- The field `n`, w[3:0]. -/
def nField (w : Word) : Nibble := w.extractLsb' 0 4
/-- The field `addr`, w[11:0]. -/
def addrField (w : Word) : Addr := w.extractLsb' 0 12
/-- The field `byte`, w[7:0]. -/
def byteField (w : Word) : Byte := w.extractLsb' 0 8
/-- The bits 11 to 4, which group 0 ignores under LOW_NIBBLE (30_encoding.md R74). -/
def midField (w : Word) : Byte := w.extractLsb' 4 8

/-! ## The decode tree (30_encoding.md R73 to R78) -/

/-- Group 0 (30_encoding.md R74). -/
def decodeGroup0 (z : ZeroGroupDecode) (w : Word) : Instr :=
  match z, nField w with
  | _, 0xE#4 => .ret (midField w)
  | .lowNibble, 0x0#4 => .cls (midField w)
  | .exact, 0x0#4 => if midField w = 0 then .cls (midField w) else .unhandled w
  | _, _ => .unhandled w

/-- Group 8 (30_encoding.md R75). -/
def decodeGroup8 (w : Word) : Instr :=
  match nField w with
  | 0x0#4 => .ldReg (xField w) (yField w)
  | 0x1#4 => .orReg (xField w) (yField w)
  | 0x2#4 => .andReg (xField w) (yField w)
  | 0x3#4 => .xorReg (xField w) (yField w)
  | 0x4#4 => .addReg (xField w) (yField w)
  | 0x5#4 => .subReg (xField w) (yField w)
  | 0x6#4 => .shr (xField w) (yField w)
  | 0x7#4 => .subnReg (xField w) (yField w)
  | 0xE#4 => .shl (xField w) (yField w)
  | _ => .unhandled w

/-- Group E (30_encoding.md R76). -/
def decodeGroupE (w : Word) : Instr :=
  match byteField w with
  | 0x9E#8 => .skp (xField w)
  | 0xA1#8 => .sknp (xField w)
  | _ => .unhandled w

/-- Group F (30_encoding.md R77). -/
def decodeGroupF (w : Word) : Instr :=
  match byteField w with
  | 0x07#8 => .ldVxDt (xField w)
  | 0x0A#8 => .ldVxK (xField w)
  | 0x15#8 => .ldDtVx (xField w)
  | 0x18#8 => .ldStVx (xField w)
  | 0x1E#8 => .addI (xField w)
  | 0x29#8 => .ldF (xField w)
  | 0x33#8 => .ldB (xField w)
  | 0x55#8 => .storeRegs (xField w)
  | 0x65#8 => .loadRegs (xField w)
  | _ => .unhandled w

/-- The decoder: total, every word selects exactly one of the 34 instructions or the unhandled behaviour (30_encoding.md R73).
Groups 5 and 9 decode on the top nibble alone (R78). -/
def decode (z : ZeroGroupDecode) (w : Word) : Instr :=
  match opField w with
  | 0x0#4 => decodeGroup0 z w
  | 0x1#4 => .jp (addrField w)
  | 0x2#4 => .call (addrField w)
  | 0x3#4 => .seImm (xField w) (byteField w)
  | 0x4#4 => .sneImm (xField w) (byteField w)
  | 0x5#4 => .seReg (xField w) (yField w) (nField w)
  | 0x6#4 => .ldImm (xField w) (byteField w)
  | 0x7#4 => .addImm (xField w) (byteField w)
  | 0x8#4 => decodeGroup8 w
  | 0x9#4 => .sneReg (xField w) (yField w) (nField w)
  | 0xA#4 => .ldI (addrField w)
  | 0xB#4 => .jpV0 (addrField w)
  | 0xC#4 => .rnd (xField w) (byteField w)
  | 0xD#4 => .drw (xField w) (yField w) (nField w)
  | 0xE#4 => decodeGroupE w
  | _ => decodeGroupF w

/-! ## Bytes -/

/-- A word from its two bytes in memory order, the high byte first (20_memory.md R53). -/
def wordOfBytes (hi lo : Byte) : Word := hi ++ lo

/-- Why a byte sequence holds no instruction: an instruction is two bytes (30_encoding.md R70), and there are fewer.
Safe: nothing is decoded. No word of two bytes is ever rejected (R73). -/
inductive DecodeError where
  | truncated
  deriving DecidableEq, Repr

/-- Decoding a byte sequence: the instruction and the bytes after it. -/
def decodeBytes (z : ZeroGroupDecode) : List Byte → Except DecodeError (Instr × List Byte)
  | hi :: lo :: rest => .ok (decode z (wordOfBytes hi lo), rest)
  | _ => .error .truncated

/-- The decoder on a word of the opcode table: its two bytes laid out big-endian, decoded under the default LOW_NIBBLE, which is
the setting spec/opcode_table.json shows. The bits above `nbits` are 0. -/
def decodeTableWord (nbits w : Nat) : Option Instr :=
  let v := w % 2 ^ nbits
  match decodeBytes Config.defaults.zeroGroupDecode [BitVec.ofNat 8 (v / 256), BitVec.ofNat 8 v] with
  | .ok (i, _) => some i
  | .error _ => none

/-! ## The encoder (30_encoding.md R71, R84) -/

/-- A word of the form op x y n. -/
def wordXYN (op x y n : Nibble) : Word := op ++ x ++ y ++ n
/-- A word of the form op addr. -/
def wordAddr (op : Nibble) (addr : Addr) : Word := op ++ addr
/-- A word of the form op x byte. -/
def wordXKK (op x : Nibble) (kk : Byte) : Word := op ++ x ++ kk
/-- A word of group 0: 0, the bits 11 to 4, the low nibble. -/
def wordZero (nn : Byte) (n : Nibble) : Word := 0#4 ++ nn ++ n

/-- The word of an instruction, read off the patterns of 30_encoding.md R84. -/
def encode : Instr → Word
  | .cls nn => wordZero nn 0x0
  | .ret nn => wordZero nn 0xE
  | .jp addr => wordAddr 0x1 addr
  | .call addr => wordAddr 0x2 addr
  | .seImm x kk => wordXKK 0x3 x kk
  | .sneImm x kk => wordXKK 0x4 x kk
  | .seReg x y n => wordXYN 0x5 x y n
  | .ldImm x kk => wordXKK 0x6 x kk
  | .addImm x kk => wordXKK 0x7 x kk
  | .ldReg x y => wordXYN 0x8 x y 0x0
  | .orReg x y => wordXYN 0x8 x y 0x1
  | .andReg x y => wordXYN 0x8 x y 0x2
  | .xorReg x y => wordXYN 0x8 x y 0x3
  | .addReg x y => wordXYN 0x8 x y 0x4
  | .subReg x y => wordXYN 0x8 x y 0x5
  | .shr x y => wordXYN 0x8 x y 0x6
  | .subnReg x y => wordXYN 0x8 x y 0x7
  | .shl x y => wordXYN 0x8 x y 0xE
  | .sneReg x y n => wordXYN 0x9 x y n
  | .ldI addr => wordAddr 0xA addr
  | .jpV0 addr => wordAddr 0xB addr
  | .rnd x kk => wordXKK 0xC x kk
  | .drw x y n => wordXYN 0xD x y n
  | .skp x => wordXKK 0xE x 0x9E
  | .sknp x => wordXKK 0xE x 0xA1
  | .ldVxDt x => wordXKK 0xF x 0x07
  | .ldVxK x => wordXKK 0xF x 0x0A
  | .ldDtVx x => wordXKK 0xF x 0x15
  | .ldStVx x => wordXKK 0xF x 0x18
  | .addI x => wordXKK 0xF x 0x1E
  | .ldF x => wordXKK 0xF x 0x29
  | .ldB x => wordXKK 0xF x 0x33
  | .storeRegs x => wordXKK 0xF x 0x55
  | .loadRegs x => wordXKK 0xF x 0x65
  | .unhandled w => w

/-- The two bytes of an instruction in memory order (20_memory.md R53). -/
def encodeBytes (i : Instr) : List Byte :=
  [(encode i).extractLsb' 8 8, (encode i).extractLsb' 0 8]

/-- The instruction an assembler form stands for: an ignored field is written as 0, and CLS and RET are 0x00E0 and 0x00EE
(30_encoding.md R82). The other fields stay. -/
def Instr.assembled : Instr → Instr
  | .cls _ => .cls 0x0E
  | .ret _ => .ret 0x0E
  | .seReg x y _ => .seReg x y 0
  | .sneReg x y _ => .sneReg x y 0
  | .shr x _ => .shr x 0
  | .shl x _ => .shl x 0
  | .jp addr => .jp addr
  | .call addr => .call addr
  | .seImm x kk => .seImm x kk
  | .sneImm x kk => .sneImm x kk
  | .ldImm x kk => .ldImm x kk
  | .addImm x kk => .addImm x kk
  | .ldReg x y => .ldReg x y
  | .orReg x y => .orReg x y
  | .andReg x y => .andReg x y
  | .xorReg x y => .xorReg x y
  | .addReg x y => .addReg x y
  | .subReg x y => .subReg x y
  | .subnReg x y => .subnReg x y
  | .ldI addr => .ldI addr
  | .jpV0 addr => .jpV0 addr
  | .rnd x kk => .rnd x kk
  | .drw x y n => .drw x y n
  | .skp x => .skp x
  | .sknp x => .sknp x
  | .ldVxDt x => .ldVxDt x
  | .ldVxK x => .ldVxK x
  | .ldDtVx x => .ldDtVx x
  | .ldStVx x => .ldStVx x
  | .addI x => .addI x
  | .ldF x => .ldF x
  | .ldB x => .ldB x
  | .storeRegs x => .storeRegs x
  | .loadRegs x => .loadRegs x
  | .unhandled w => .unhandled w

/-! ## The opcode map as data (30_encoding.md R84) -/

/-- A mask and a match: a word `w` selects the row where `w &&& mask = bits`. -/
structure OpcodeRow where
  mask : Word
  bits : Word
  deriving DecidableEq, Repr

/-- Whether a word selects a row. -/
def OpcodeRow.selects (r : OpcodeRow) (w : Word) : Bool := w &&& r.mask == r.bits

/-- The row of the opcode map of R84 that an instruction has; none for UNHANDLED. CLS depends on ZERO_GROUP_DECODE. -/
def Instr.row (z : ZeroGroupDecode) : Instr → Option OpcodeRow
  | .cls _ => match z with
    | .lowNibble => some ⟨0xF00F, 0x0000⟩
    | .exact => some ⟨0xFFFF, 0x0000⟩
  | .ret _ => some ⟨0xF00F, 0x000E⟩
  | .jp _ => some ⟨0xF000, 0x1000⟩
  | .call _ => some ⟨0xF000, 0x2000⟩
  | .seImm _ _ => some ⟨0xF000, 0x3000⟩
  | .sneImm _ _ => some ⟨0xF000, 0x4000⟩
  | .seReg _ _ _ => some ⟨0xF000, 0x5000⟩
  | .ldImm _ _ => some ⟨0xF000, 0x6000⟩
  | .addImm _ _ => some ⟨0xF000, 0x7000⟩
  | .ldReg _ _ => some ⟨0xF00F, 0x8000⟩
  | .orReg _ _ => some ⟨0xF00F, 0x8001⟩
  | .andReg _ _ => some ⟨0xF00F, 0x8002⟩
  | .xorReg _ _ => some ⟨0xF00F, 0x8003⟩
  | .addReg _ _ => some ⟨0xF00F, 0x8004⟩
  | .subReg _ _ => some ⟨0xF00F, 0x8005⟩
  | .shr _ _ => some ⟨0xF00F, 0x8006⟩
  | .subnReg _ _ => some ⟨0xF00F, 0x8007⟩
  | .shl _ _ => some ⟨0xF00F, 0x800E⟩
  | .sneReg _ _ _ => some ⟨0xF000, 0x9000⟩
  | .ldI _ => some ⟨0xF000, 0xA000⟩
  | .jpV0 _ => some ⟨0xF000, 0xB000⟩
  | .rnd _ _ => some ⟨0xF000, 0xC000⟩
  | .drw _ _ _ => some ⟨0xF000, 0xD000⟩
  | .skp _ => some ⟨0xF0FF, 0xE09E⟩
  | .sknp _ => some ⟨0xF0FF, 0xE0A1⟩
  | .ldVxDt _ => some ⟨0xF0FF, 0xF007⟩
  | .ldVxK _ => some ⟨0xF0FF, 0xF00A⟩
  | .ldDtVx _ => some ⟨0xF0FF, 0xF015⟩
  | .ldStVx _ => some ⟨0xF0FF, 0xF018⟩
  | .addI _ => some ⟨0xF0FF, 0xF01E⟩
  | .ldF _ => some ⟨0xF0FF, 0xF029⟩
  | .ldB _ => some ⟨0xF0FF, 0xF033⟩
  | .storeRegs _ => some ⟨0xF0FF, 0xF055⟩
  | .loadRegs _ => some ⟨0xF0FF, 0xF065⟩
  | .unhandled _ => none

/-- The rows 1 to 17 of R84 in the spec's order. -/
def opcodeMapLow (z : ZeroGroupDecode) : List OpcodeRow :=
  [⟨(match z with | .lowNibble => 0xF00F | .exact => 0xFFFF), 0x0000⟩, ⟨0xF00F, 0x000E⟩] ++
  [⟨0xF000, 0x1000⟩, ⟨0xF000, 0x2000⟩, ⟨0xF000, 0x3000⟩, ⟨0xF000, 0x4000⟩, ⟨0xF000, 0x5000⟩] ++
  [⟨0xF000, 0x6000⟩, ⟨0xF000, 0x7000⟩] ++
  [⟨0xF00F, 0x8000⟩, ⟨0xF00F, 0x8001⟩, ⟨0xF00F, 0x8002⟩, ⟨0xF00F, 0x8003⟩] ++
  [⟨0xF00F, 0x8004⟩, ⟨0xF00F, 0x8005⟩, ⟨0xF00F, 0x8006⟩, ⟨0xF00F, 0x8007⟩]

/-- The rows 18 to 34 of R84 in the spec's order. -/
def opcodeMapHigh : List OpcodeRow :=
  [⟨0xF00F, 0x800E⟩, ⟨0xF000, 0x9000⟩, ⟨0xF000, 0xA000⟩, ⟨0xF000, 0xB000⟩, ⟨0xF000, 0xC000⟩, ⟨0xF000, 0xD000⟩] ++
  [⟨0xF0FF, 0xE09E⟩, ⟨0xF0FF, 0xE0A1⟩] ++
  [⟨0xF0FF, 0xF007⟩, ⟨0xF0FF, 0xF00A⟩, ⟨0xF0FF, 0xF015⟩, ⟨0xF0FF, 0xF018⟩, ⟨0xF0FF, 0xF01E⟩] ++
  [⟨0xF0FF, 0xF029⟩, ⟨0xF0FF, 0xF033⟩, ⟨0xF0FF, 0xF055⟩, ⟨0xF0FF, 0xF065⟩]

/-- The opcode map of 30_encoding.md R84: 34 rows; under EXACT, CLS has mask 0xFFFF. -/
def opcodeMap (z : ZeroGroupDecode) : List OpcodeRow := opcodeMapLow z ++ opcodeMapHigh

end Sys2Proof
end

