-- ==== Sys2Proof/Machine/State.lean ====
section
/-! DEFINITION. The state of the CHIP-8 core: every element of 10_state.md R20, the parameters, and the model's own fields. -/

namespace Sys2Proof.Machine

/-- Memory M: the listed cells; every other address reads as after reset (Machine/Ops.lean, `Memory.unlisted`, log 6). -/
abbrev Memory := List Host.Cell

/-- The display FB: row y is a vector of 64 pixels, column x at bit x. FB[x, y] is element y·64 + x of the spec (44_display.md R190). -/
abbrev Display := Vector (BitVec 64) 32

/-- The cause of a fault (60_exceptions.md R221). The codes 7 and above, which that rule says are never used, have no constructor (log 16). -/
inductive FaultCause where
  | none
  | fetchRange
  | dataRange
  | stackOverflow
  | stackUnderflow
  | fontWrite
  | keyIndex
  deriving DecidableEq, Repr

/-- An event on the `diag` output (00_scope.md R17). The one kind is UNHANDLED. -/
inductive DiagEvent where
  | unhandled (pc : Word) (word : Word)
  deriving DecidableEq, Repr

/-- The errors of Load (70_reset_and_hazards.md R256). -/
inductive LoadError where
  | tooLarge
  | unreadable
  deriving DecidableEq, Repr

/-- Where the machine stands in the boot order of 70_reset_and_hazards.md R257 (log 9).
`fresh`: after Reset. `loaded`: after LOAD_OK. `running`: an iteration has run. `failed`: Load returned an error. -/
inductive Boot where
  | fresh
  | loaded
  | running
  | failed (e : LoadError)
  deriving DecidableEq, Repr

/-- The whole state (10_state.md R20). Below `faultAddr` stand the parameters and the model's own fields (INVENTORY.md, State). -/
structure State where
  /-- V0 to VF (R22). -/
  v          : Vector Byte 16
  /-- The index register I (R27). -/
  i          : Word
  /-- PC (R25). -/
  pc         : Word
  /-- The stack slots S[0] to S[15] (R28). -/
  stack      : Vector Word 16
  /-- SP, 0 to 16 (R29). -/
  sp         : Fin 17
  /-- M (R30). -/
  mem        : Memory
  /-- FB (R32). -/
  fb         : Display
  /-- The delay timer DT (R35). -/
  dt         : Word
  /-- The sound timer ST (R35). -/
  st         : Word
  /-- Key (R33): bit k is key k. -/
  key        : BitVec 16
  /-- PrevKey (R34). -/
  prevKey    : BitVec 16
  /-- `paused` (R36). -/
  paused     : Bool
  /-- `awaiting` (R37). -/
  awaiting   : Bool
  /-- `wait_reg` (R37). -/
  waitReg    : Reg
  /-- `cur_instr` (R38). -/
  curInstr   : Word
  /-- `faulted` (R39). -/
  faulted    : Bool
  /-- `fault_cause` (R39). -/
  faultCause : FaultCause
  /-- `fault_pc` (R39). -/
  faultPc    : Word
  /-- `fault_word` (R39). -/
  faultWord  : Word
  /-- `fault_addr` (R39). -/
  faultAddr  : BitVec 17
  /-- The parameters of 00_scope.md R7 (log 4). -/
  params     : Params
  /-- MODEL'S OWN: where the machine stands in the boot order (log 9). -/
  boot       : Boot
  /-- MODEL'S OWN: the host's pending moves, oldest first (log 1). -/
  host       : List HostOp
  /-- MODEL'S OWN: index of the host's next free move (log 2) and of a free random byte (log 3). -/
  draws      : Nat
  /-- MODEL'S OWN: the events sent on the `diag` output so far, oldest first (log 8). -/
  diag       : List DiagEvent
  deriving DecidableEq, Repr

/-- The host's outcome `fault` is never used: each fault of the spec is a state, FAULTED, with a record (60_exceptions.md R222), and a
step into it answers a next state (log 7). So this type has no constructor. -/
inductive Fault : Type
  deriving DecidableEq, Repr

/-- Why a step answers no state. -/
inductive Refusal where
  /-- An instruction that has no meaning yet; raised by no arm of `exec` now. Safe. -/
  | notModelled (mnemonic : String)
  /-- Raised by `step` when an iteration is asked for after a failed load: "A model refuses a run that iterates after a failed load"
  (70_reset_and_hazards.md R256). Safe. -/
  | iterationAfterFailedLoad (e : LoadError)
  /-- Raised by `step` when an iteration is asked for before the one successful Load that follows a Reset (70_reset_and_hazards.md
  R256, R257; 93_implementation_defined.md row 20: "a model rejects any iteration before a new Reset and a successful Load"). Safe. -/
  | iterationBeforeLoad
  /-- Raised by `step` when Load is called outside its window: "only after `Reset` and before the first iteration, and at most once
  per reset" (70_reset_and_hazards.md R255, log 9). Safe. -/
  | loadOutsideWindow
  deriving DecidableEq, Repr

/-- The machine after reset (10_state.md R41): the font is in the unlisted memory, and the parameters have their defaults. -/
def State.reset : State where
  v          := Vector.replicate 16 0
  i          := 0
  pc         := 0x0200
  stack      := Vector.replicate 16 0
  sp         := 0
  mem        := []
  fb         := Vector.replicate 32 0
  dt         := 0
  st         := 0
  key        := 0
  prevKey    := 0
  paused     := false
  awaiting   := false
  waitReg    := 0
  curInstr   := 0
  faulted    := false
  faultCause := .none
  faultPc    := 0
  faultWord  := 0
  faultAddr  := 0
  params     := Config.defaults
  boot       := .fresh
  host       := []
  draws      := 0
  diag       := []

end Sys2Proof.Machine
end

