-- ==== Sys2Proof/Machine/Ops.lean ====
section
/-! DEFINITION. The named operations over memory, registers, stack, display and the fault state. -/

namespace Sys2Proof.Machine

/-! ## Memory (20_memory.md R50, R59) -/

/-- What an address reads as that memory does not list: the reset contents of 10_state.md R41, with the default font (log 5, log 6). -/
def Memory.unlisted (a : Nat) : Byte :=
  if a < Config.fontSize then Config.defaultFontByte a else 0

/-- The byte at an address. -/
def Memory.read : Memory → Nat → Byte
  | [], a => Memory.unlisted a
  | (k, b) :: m, a => if a = k then b else Memory.read m a

/-- A cell put before a list of cells, unless its byte is what the address reads as unlisted. -/
def Memory.cellBefore (a : Nat) (b : Byte) (m : Memory) : Memory :=
  if b = Memory.unlisted a then m else (a, b) :: m

/-- Memory with one byte written. The canonical form is kept (Laws/Memory.lean, `Memory.wf_write`). -/
def Memory.write : Memory → Nat → Byte → Memory
  | [], a, b => Memory.cellBefore a b []
  | (k, c) :: m, a, b =>
    if a < k then Memory.cellBefore a b ((k, c) :: m)
    else if a = k then Memory.cellBefore a b m
    else (k, c) :: Memory.write m a b

/-- Every cell lies at `lo` or above, the addresses rise strictly, and no cell holds what its address reads as unlisted. -/
def Memory.wfFrom : Nat → Memory → Bool
  | _, [] => true
  | lo, (k, b) :: m => decide (lo ≤ k) && (b != Memory.unlisted k) && Memory.wfFrom (k + 1) m

/-- The canonical form of memory. -/
def Memory.wf (m : Memory) : Bool := Memory.wfFrom 0 m

/-- Every listed cell lies in the 4096 bytes of 20_memory.md R50. -/
def Memory.inRange (m : Memory) : Bool := m.all fun c => decide (c.1 < Config.memSize)

/-- Bytes written at an address and above, in ascending order of address (20_memory.md R53). -/
def Memory.writeBytes : Memory → Nat → List Byte → Memory
  | m, _, [] => m
  | m, a, b :: bs => Memory.writeBytes (m.write a b) (a + 1) bs

/-- The `n` bytes at an address and above, in ascending order of address (20_memory.md R53). -/
def Memory.readBytes (m : Memory) (a n : Nat) : List Byte := (List.range n).map fun k => m.read (a + k)

/-- Memory after reset under a Font Table: FONT_GLYPHS at 0 to 79, zero above (10_state.md R41, 70_reset_and_hazards.md R250). -/
def Memory.afterReset (glyphs : Vector Byte 80) : Memory := Memory.writeBytes [] Config.fontBase glyphs.toList

/-! ## General registers (10_state.md R22) -/

/-- The value of V[x]. -/
def State.reg (s : State) (x : Reg) : Byte := s.v[x.toNat]

/-- V[x] <- b. -/
def State.setReg (s : State) (x : Reg) (b : Byte) : State := { s with v := s.v.set x.toNat b }

/-- VF, the flag register (10_state.md R23). -/
def vf : Reg := 0xF

/-! ## The program counter (40_execution_cycle.md R93, 41_control_flow.md R120) -/

/-- p + 2, taken mod 2^16: the address of the next instruction. -/
def State.nextPc (s : State) : Word := s.pc + 2

/-- p + 4, taken mod 2^16: the address a skip goes to. -/
def State.skipPc (s : State) : Word := s.pc + 4

/-- PC <- the advanced value (40_execution_cycle.md R93, R95). -/
def State.advance (s : State) : State := { s with pc := s.nextPc }

/-- PC after a conditional skip (41_control_flow.md R120). -/
def State.skipIf (s : State) (c : Bool) : State := { s with pc := if c then s.skipPc else s.nextPc }

/-! ## Taking a fault, and the way back (60_exceptions.md R222, R226) -/

/-- The number of a cause (60_exceptions.md R221). -/
def FaultCause.code : FaultCause → BitVec 3
  | .none => 0
  | .fetchRange => 1
  | .dataRange => 2
  | .stackOverflow => 3
  | .stackUnderflow => 4
  | .fontWrite => 5
  | .keyIndex => 6

/-- Fault entry: the record is written and nothing else changes (60_exceptions.md R222). -/
def State.enterFaulted (s : State) (cause : FaultCause) (p w : Word) (addr : Nat) : State :=
  { s with
    faulted := true, faultCause := cause, faultPc := p, faultWord := w, faultAddr := BitVec.ofNat 17 addr }

/-- `raise Fault(cause, addr)` in the execute phase (40_execution_cycle.md R96): fault_pc is p, which PC still holds, and fault_word is
the fetched word, which cur_instr holds since the fetch (R93, log 17). -/
def State.raise (s : State) (cause : FaultCause) (addr : Nat) : State :=
  s.enterFaulted cause s.pc s.curInstr addr

/-- Reset, the only way out of FAULTED (70_reset_and_hazards.md R250, 60_exceptions.md R226): every element of 10_state.md R20 takes its
value from R41 and the font is copied in. The parameters, the host's pending moves and the events already sent stay (log 14). -/
def State.doReset (s : State) : State :=
  { State.reset with
    mem := Memory.afterReset s.params.fontGlyphs,
    params := s.params, host := s.host, draws := s.draws, diag := s.diag }

/-! ## The stack (10_state.md R28, R29) -/

/-- A push: S[SP] is written, then SP counts up; at SP = 16 nothing can be pushed. -/
def State.push (s : State) (a : Word) : Option State :=
  if h : s.sp.val < 16 then some { s with stack := s.stack.set s.sp.val a, sp := ⟨s.sp.val + 1, by omega⟩ }
  else none

/-- A pop: SP counts down, then S[SP] is read; the slot keeps its value (R28); at SP = 0 nothing can be popped. -/
def State.pop (s : State) : Option (Word × State) :=
  if h : 0 < s.sp.val then some (s.stack[s.sp.val - 1], { s with sp := ⟨s.sp.val - 1, by omega⟩ })
  else none

/-! ## The display (44_display.md R190) -/

/-- FB[x, y]. -/
def Display.pixel (fb : Display) (x : Fin 64) (y : Fin 32) : Bool := fb[y.val].getLsbD x.val

/-- FB[x, y] <- FB[x, y] XOR 1. -/
def Display.toggle (fb : Display) (x : Fin 64) (y : Fin 32) : Display :=
  fb.set y.val (fb[y.val] ^^^ BitVec.twoPow 64 x.val)

/-- All 2048 pixels 0. -/
def Display.clear : Display := Vector.replicate 32 0

/-! ## The host's moves -/

/-- The host's current move: the oldest of the moves given, or, where none is left, a free one (log 1, log 2). -/
def State.pendingOp (s : State) : HostOp :=
  match s.host with
  | op :: _ => op
  | [] => Config.freeOp s.draws

/-- The host's current move is done. -/
def State.consumeOp (s : State) : State :=
  match s.host with
  | _ :: rest => { s with host := rest }
  | [] => { s with draws := s.draws + 1 }

/-- `Rand()`: the current iteration's `rnd_in` (00_scope.md R18); a free byte where no iteration is in progress (log 3). -/
def State.rand (s : State) : Byte :=
  match s.pendingOp with
  | .iterate ev => ev.rndIn
  | .reset | .load _ | .setCycleHz _ => Config.freeRandom s.draws

/-- Whether Load may be called now: after Reset, before the first iteration, once per reset (70_reset_and_hazards.md R255, log 9). -/
def Boot.mayLoad : Boot → Bool
  | .fresh => true
  | .loaded | .running | .failed _ => false

/-- Whether an iteration may run now: only after one successful Load since the last Reset (70_reset_and_hazards.md R256, R257, log 9). -/
def Boot.mayIterate : Boot → Bool
  | .loaded | .running => true
  | .fresh | .failed _ => false

/-- `Load(b)` (70_reset_and_hazards.md R255, R256): all of the bytes at 0x200 and above, or an error and no byte. -/
def State.doLoad (s : State) (file : Option (List Byte)) : State :=
  match file with
  | none => { s with boot := .failed .unreadable }
  | some bytes =>
    if bytes.length > Config.maxRom then { s with boot := .failed .tooLarge }
    else { s with mem := s.mem.writeBytes Config.progBase bytes, boot := .loaded }

/-- CYCLE_HZ is changed: no state of the block is touched (00_scope.md R15). -/
def State.setCycleHz (s : State) (hz : Nat) : State :=
  { s with params := { s.params with cycleHz := some hz } }

end Sys2Proof.Machine
end

