-- ==== Sys2Proof/Machine/Flags.lean ====
section
/-! DEFINITION. What each instruction leaves in VF (42_alu.md R156): carry, no-borrow and shifted-out bit, with the parameters
LEGACY_PARITY and SHIFT_VF_ORDER. The collision flag is part of drawing (Machine/Display.lean). -/

namespace Sys2Proof.Machine

/-- A flag as VF holds it: 1 or 0. -/
def flagByte (c : Bool) : Byte := if c then 1 else 0

/-- The carry of an addition (42_alu.md R147): the exact sum exceeds 255. -/
def carryFlag (a b : Byte) : Bool := decide (a.toNat + b.toNat > 255)

/-- The no-borrow flag of a − b (42_alu.md R148, R149); under LEGACY_PARITY the strict test of R150. -/
def noBorrowFlag (legacy : Bool) (a b : Byte) : Bool :=
  if legacy then decide (a.toNat > b.toNat) else decide (a.toNat ≥ b.toNat)

/-- The bit SHR shifts out: bit 0 (42_alu.md R152). -/
def shrOut (a : Byte) : Bool := a.getLsbD 0

/-- The bit SHL shifts out: bit 7 (42_alu.md R153). -/
def shlOut (a : Byte) : Bool := a.getLsbD 7

/-- The byte SHR writes (42_alu.md R152). -/
def shrValue (a : Byte) : Byte := a >>> 1

/-- The byte SHL writes: the left shift of 42_alu.md R153, or under LEGACY_PARITY the right shift of R154. -/
def shlValue (legacy : Bool) (a : Byte) : Byte := if legacy then a >>> 1 else a <<< 1

/-- A result written to V[x], then a flag to VF: the flag is last (42_alu.md R147 to R149, 00_scope.md R11). -/
def State.setRegThenFlag (s : State) (x : Reg) (b : Byte) (c : Bool) : State :=
  (s.setReg x b).setReg vf (flagByte c)

/-- The final VF of a shift of VF itself (42_alu.md R151), where `out` is the bit shifted out and `value` shifts a byte by one. -/
def shiftOfVf (order : ShiftVfOrder) (out : Bool) (value : Byte → Byte) (old : Byte) : Byte :=
  match order with
  | .listedOrder => value old
  | .sequential => value (flagByte out)
  | .flagWins => flagByte out

/-- The writes of a shift: VF <- the bit shifted out, V[x] <- the shifted byte (42_alu.md R152, R153); for x = 0xF the one value that
SHIFT_VF_ORDER selects (R151). -/
def State.shiftReg (s : State) (x : Reg) (out : Byte → Bool) (value : Byte → Byte) : State :=
  if x = vf then s.setReg vf (shiftOfVf s.params.shiftVfOrder (out (s.reg vf)) value (s.reg vf))
  else (s.setReg vf (flagByte (out (s.reg x)))).setReg x (value (s.reg x))

end Sys2Proof.Machine
end

