-- ==== Sys2Proof/Machine/Operands.lean ====
section
/-! DEFINITION. Operand forms: effective addresses and their checks (20_memory.md R55 to R57), fetching a word, key lookup
(41_control_flow.md R129), BCD digits, register blocks. -/

namespace Sys2Proof.Machine

/-! ## Effective addresses -/

/-- The effective address I + k, exact and never wrapped (20_memory.md R56). -/
def State.effAddr (s : State) (k : Nat) : Nat := s.i.toNat + k

/-- The addresses I, I + 1, …, I + n − 1 in ascending order (20_memory.md R58). -/
def State.effAddrs (s : State) (n : Nat) : List Nat := (List.range n).map s.effAddr

/-- CheckRead (20_memory.md R55): the cause of the fault, if the address fails. -/
def checkRead (a : Nat) : Option FaultCause :=
  if a > 0xFFF then some .dataRange else none

/-- CheckWrite (20_memory.md R55): the cause of the fault, if the address fails. -/
def checkWrite (policy : FontWritePolicy) (a : Nat) : Option FaultCause :=
  if a > 0xFFF then some .dataRange
  else if policy = .fault ∧ a ≤ 0x04F then some .fontWrite
  else none

/-- The first address that fails a check, with its cause (20_memory.md R57). -/
def firstFailing (check : Nat → Option FaultCause) : List Nat → Option (FaultCause × Nat)
  | [] => none
  | a :: as =>
    match check a with
    | some c => some (c, a)
    | none => firstFailing check as

/-- The fault of an instruction that reads the `n` bytes at I, if there is one. -/
def State.readFault (s : State) (n : Nat) : Option (FaultCause × Nat) :=
  firstFailing checkRead (s.effAddrs n)

/-- The fault of an instruction that writes the `n` bytes at I, if there is one. -/
def State.writeFault (s : State) (n : Nat) : Option (FaultCause × Nat) :=
  firstFailing (checkWrite s.params.fontWritePolicy) (s.effAddrs n)

/-- An instruction's checks come before all its effects: either the fault is raised, or the effect is made (20_memory.md R57). -/
def State.orRaise (s : State) (failing : Option (FaultCause × Nat)) (effect : State) : State :=
  match failing with
  | some (c, a) => s.raise c a
  | none => effect

/-! ## Fetch (40_execution_cycle.md R91, R92) -/

/-- The first byte address outside memory that a fetch at PC needs, if it needs one (40_execution_cycle.md R91). -/
def State.fetchFault (s : State) : Option Nat :=
  if s.pc.toNat > 0x0FFE then some (if s.pc.toNat > 0x0FFF then s.pc.toNat else 0x1000) else none

/-- The instruction word at PC, big-endian (40_execution_cycle.md R92, 20_memory.md R53). -/
def State.fetchWord (s : State) : Word :=
  wordOfBytes (s.mem.read s.pc.toNat) (s.mem.read (s.pc.toNat + 1))

/-! ## Keys -/

/-- Key[k]. -/
def State.keyHeld (s : State) (k : Nibble) : Bool := s.key.getLsbD k.toNat

/-- KeyPressed(v) (41_control_flow.md R129); `none` where it raises KEY_INDEX. -/
def State.keyPressed (s : State) (v : Byte) : Option Bool :=
  if v.toNat ≤ 0x0F then some (s.keyHeld (v.setWidth 4))
  else match s.params.keyIndexPolicy with
    | .fault => none
    | .mask => some (s.keyHeld ((v &&& 0x0F).setWidth 4))
    | .notPressed => some false

/-- The press edges of a sample (40_execution_cycle.md R104): keys held now and not in the previous sample, in ascending order. -/
def State.pressEdges (s : State) : List (Fin 16) :=
  (List.finRange 16).filter fun k => s.key.getLsbD k.val && !s.prevKey.getLsbD k.val

/-! ## Data -/

/-- The hundreds, tens and ones of a byte (43_index_memory.md R173). -/
def bcdDigits (b : Byte) : List Byte :=
  [BitVec.ofNat 8 (b.toNat / 100), BitVec.ofNat 8 (b.toNat / 10 % 10), BitVec.ofNat 8 (b.toNat % 10)]

/-- The values of V0 to Vx in ascending order (43_index_memory.md R174). -/
def State.regBlock (s : State) (x : Reg) : List Byte := s.v.toList.take (x.toNat + 1)

/-- The registers after V0 to Vx are loaded from I and above; the registers above x keep their values (43_index_memory.md R175). -/
def State.loadedRegs (s : State) (x : Reg) : Vector Byte 16 :=
  Vector.ofFn fun k : Fin 16 => if k.val ≤ x.toNat then s.mem.read (s.effAddr k.val) else s.v[k.val]

/-- The font glyph address of a byte's low nibble (43_index_memory.md R172). -/
def glyphAddr (b : Byte) : Word := BitVec.ofNat 16 (Config.fontBase + 5 * (b.toNat % 16))

end Sys2Proof.Machine
end

