-- ==== Sys2Proof/Machine/ControlFlow.lean ====
section
/-! DEFINITION. The control-flow instructions (41_control_flow.md). -/

namespace Sys2Proof.Machine

/-- RET (41_control_flow.md R121). -/
def execRet (_nn : Byte) (s : State) : Host.Outcome State Fault Refusal :=
  match s.pop with
  | some (a, t) => .next { t with pc := a }
  | none => .next (s.raise .stackUnderflow 0)

/-- JP nnn (41_control_flow.md R122). -/
def execJp (addr : Addr) (s : State) : Host.Outcome State Fault Refusal :=
  .next { s with pc := addr.setWidth 16 }

/-- CALL nnn (41_control_flow.md R123): the pushed value is p + 2. -/
def execCall (addr : Addr) (s : State) : Host.Outcome State Fault Refusal :=
  match s.push s.nextPc with
  | some t => .next { t with pc := addr.setWidth 16 }
  | none => .next (s.raise .stackOverflow 16)

/-- SE Vx, kk (41_control_flow.md R124). -/
def execSeImm (x : Reg) (kk : Byte) (s : State) : Host.Outcome State Fault Refusal :=
  .next (s.skipIf (s.reg x == kk))

/-- SNE Vx, kk (41_control_flow.md R125). -/
def execSneImm (x : Reg) (kk : Byte) (s : State) : Host.Outcome State Fault Refusal :=
  .next (s.skipIf (s.reg x != kk))

/-- SE Vx, Vy (41_control_flow.md R126). -/
def execSeReg (x y : Reg) (_n : Nibble) (s : State) : Host.Outcome State Fault Refusal :=
  .next (s.skipIf (s.reg x == s.reg y))

/-- SNE Vx, Vy (41_control_flow.md R127). -/
def execSneReg (x y : Reg) (_n : Nibble) (s : State) : Host.Outcome State Fault Refusal :=
  .next (s.skipIf (s.reg x != s.reg y))

/-- JP V0, nnn (41_control_flow.md R128): the sum is not wrapped to 12 bits. -/
def execJpV0 (addr : Addr) (s : State) : Host.Outcome State Fault Refusal :=
  .next { s with pc := (s.reg 0).setWidth 16 + addr.setWidth 16 }

/-- SKP Vx (41_control_flow.md R130). -/
def execSkp (x : Reg) (s : State) : Host.Outcome State Fault Refusal :=
  match s.keyPressed (s.reg x) with
  | some held => .next (s.skipIf held)
  | none => .next (s.raise .keyIndex (s.reg x).toNat)

/-- SKNP Vx (41_control_flow.md R131). -/
def execSknp (x : Reg) (s : State) : Host.Outcome State Fault Refusal :=
  match s.keyPressed (s.reg x) with
  | some held => .next (s.skipIf (!held))
  | none => .next (s.raise .keyIndex (s.reg x).toNat)

end Sys2Proof.Machine
end

