-- ==== Sys2Proof/Machine/Display.lean ====
section
/-! DEFINITION. The display instructions (44_display.md). -/

namespace Sys2Proof.Machine

/-- A display and whether a set sprite bit fell on a set pixel so far (the variable `collision` of 44_display.md R192). -/
structure Drawing where
  fb        : Display
  collision : Bool
  deriving DecidableEq, Repr

/-- One set sprite bit at column px and row py (44_display.md R192). -/
def Drawing.plot (d : Drawing) (px : Fin 64) (py : Fin 32) : Drawing :=
  { fb := d.fb.toggle px py, collision := d.collision || d.fb.pixel px py }

/-- The columns of one sprite row, `c` in 0 to 7; bit 7 − c of the row byte is column c, so bit 7 is leftmost (44_display.md R193, log 12). -/
def Drawing.plotRow (d : Drawing) (x0 : Nat) (py : Fin 32) (row : Byte) : Drawing :=
  (List.range 8).foldl
    (fun d c => if row.getLsbD (7 - c) then d.plot (Fin.ofNat 64 (x0 + c)) py else d) d

/-- The rows of a sprite from row `r` on, wrapping at the bottom edge (44_display.md R192). -/
def Drawing.plotRows (d : Drawing) (x0 y0 : Nat) : Nat → List Byte → Drawing
  | _, [] => d
  | r, row :: rows => (d.plotRow x0 (Fin.ofNat 32 (y0 + r)) row).plotRows x0 y0 (r + 1) rows

/-- A sprite drawn at column V[x] mod 64 and row V[y] mod 32 (44_display.md R192). -/
def State.drawing (s : State) (x y : Reg) (n : Nibble) : Drawing :=
  Drawing.plotRows ⟨s.fb, false⟩ ((s.reg x).toNat % 64) ((s.reg y).toNat % 32) 0
    (s.mem.readBytes (s.effAddr 0) n.toNat)

/-- CLS (44_display.md R191). -/
def execCls (_nn : Byte) (s : State) : Host.Outcome State Fault Refusal :=
  .next { s.advance with fb := Display.clear }

/-- DRW Vx, Vy, n (44_display.md R192): VF is written last, n = 0 included. -/
def execDrw (x y : Reg) (n : Nibble) (s : State) : Host.Outcome State Fault Refusal :=
  .next (s.orRaise (s.readFault n.toNat)
    { s.advance.setReg vf (flagByte (s.drawing x y n).collision) with fb := (s.drawing x y n).fb })

end Sys2Proof.Machine
end

