-- ==== Sys2Proof/Machine/IndexMemory.lean ====
section
/-! DEFINITION. The index register and memory instructions (43_index_memory.md). -/

namespace Sys2Proof.Machine

/-- LD I, nnn (43_index_memory.md R170). -/
def execLdI (addr : Addr) (s : State) : Host.Outcome State Fault Refusal :=
  .next { s.advance with i := addr.setWidth 16 }

/-- ADD I, Vx (43_index_memory.md R171): mod 2^16, no flag. -/
def execAddI (x : Reg) (s : State) : Host.Outcome State Fault Refusal :=
  .next { s.advance with i := s.i + (s.reg x).setWidth 16 }

/-- LD F, Vx (43_index_memory.md R172). -/
def execLdF (x : Reg) (s : State) : Host.Outcome State Fault Refusal :=
  .next { s.advance with i := glyphAddr (s.reg x) }

/-- LD B, Vx (43_index_memory.md R173). -/
def execLdB (x : Reg) (s : State) : Host.Outcome State Fault Refusal :=
  .next (s.orRaise (s.writeFault 3) { s.advance with mem := s.mem.writeBytes (s.effAddr 0) (bcdDigits (s.reg x)) })

/-- LD [I], Vx (43_index_memory.md R174): I is unchanged. -/
def execStoreRegs (x : Reg) (s : State) : Host.Outcome State Fault Refusal :=
  .next (s.orRaise (s.writeFault (x.toNat + 1)) { s.advance with mem := s.mem.writeBytes (s.effAddr 0) (s.regBlock x) })

/-- LD Vx, [I] (43_index_memory.md R175): I is unchanged. -/
def execLoadRegs (x : Reg) (s : State) : Host.Outcome State Fault Refusal :=
  .next (s.orRaise (s.readFault (x.toNat + 1)) { s.advance with v := s.loadedRegs x })

end Sys2Proof.Machine
end

