-- ==== Sys2Proof/Machine/TimerKey.lean ====
section
/-! DEFINITION. The timer and key-wait instructions (45_timer_key.md). -/

namespace Sys2Proof.Machine

/-- LD Vx, DT (45_timer_key.md R200): the low 8 bits of DT. -/
def execLdVxDt (x : Reg) (s : State) : Host.Outcome State Fault Refusal :=
  .next (s.setReg x (s.dt.setWidth 8)).advance

/-- LD Vx, K (45_timer_key.md R201): the wait begins; V[x] is written when a key press resolves it (Machine/Controller.lean). -/
def execLdVxK (x : Reg) (s : State) : Host.Outcome State Fault Refusal :=
  .next { s.advance with awaiting := true, waitReg := x }

/-- LD DT, Vx (45_timer_key.md R202). -/
def execLdDtVx (x : Reg) (s : State) : Host.Outcome State Fault Refusal :=
  .next { s.advance with dt := (s.reg x).setWidth 16 }

/-- LD ST, Vx (45_timer_key.md R203). -/
def execLdStVx (x : Reg) (s : State) : Host.Outcome State Fault Refusal :=
  .next { s.advance with st := (s.reg x).setWidth 16 }

end Sys2Proof.Machine
end

