-- ==== Sys2Proof/Machine/Unhandled.lean ====
section
/-! DEFINITION. The words that match no row of the opcode map (40_execution_cycle.md R97). -/

namespace Sys2Proof.Machine

/-- An unhandled word: a no-op that advances PC by 2 and sends Diag(UNHANDLED, p, w) (40_execution_cycle.md R97, 00_scope.md R17). -/
def execUnhandled (w : Word) (s : State) : Host.Outcome State Fault Refusal :=
  .next { s.advance with diag := s.diag ++ [.unhandled s.pc w] }

end Sys2Proof.Machine
end

