-- ==== Sys2Proof/Machine/Controller.lean ====
section
/-! DEFINITION. The executor step, the timer unit, the key-wait resolution and the cycle controller's iteration
(40_execution_cycle.md, 60_exceptions.md R235). -/

namespace Sys2Proof.Machine

/-- A function on the next state, applied where the outcome has one. -/
def mapNext (f : State → State) : Host.Outcome State Fault Refusal → Host.Outcome State Fault Refusal
  | .next s => .next (f s)
  | .fault e => .fault e
  | .refused r => .refused r

/-- One executor step (40_execution_cycle.md R91 to R97): the fetch check, the fetch, cur_instr <- w, dispatch. -/
def executorStep (s : State) : Host.Outcome State Fault Refusal :=
  match s.fetchFault with
  | some fa => .next (s.enterFaulted .fetchRange s.pc 0x0000 fa)
  | none => exec (decode s.params.zeroGroupDecode s.fetchWord) { s with curInstr := s.fetchWord }

/-- The key sample (40_execution_cycle.md R103). -/
def State.sampleKeys (s : State) (ev : Ev) : State := { s with key := ev.keysIn }

/-- The pause toggle (40_execution_cycle.md R102). -/
def State.togglePause (s : State) (ev : Ev) : State := { s with paused := s.paused ^^ ev.pauseToggle }

/-- ResolveKeyWait (40_execution_cycle.md R104), which runs only while awaiting: the lowest press edge goes to V[wait_reg]. -/
def State.resolveKeyWait (s : State) : State :=
  if s.awaiting then
    match s.pressEdges with
    | k :: _ => { s.setReg s.waitReg (BitVec.ofNat 8 k.val) with awaiting := false }
    | [] => s
  else s

/-- The executor gate (40_execution_cycle.md R105, R108). -/
def State.stepGate (s : State) (ev : Ev) : Bool :=
  !s.paused && !s.awaiting && (ev.execDue || ev.stepReq)

/-- The timer gate (40_execution_cycle.md R106). -/
def State.timerGate (s : State) (ev : Ev) : Bool :=
  !s.faulted && !s.paused && ev.timerDue

/-- One counter of the timer unit counts down and stops at 0 (60_exceptions.md R235). -/
def countDown (t : Word) : Word := if t = 0 then 0 else t - 1

/-- TimerTick (60_exceptions.md R235). -/
def State.timerTick (s : State) : State := { s with dt := countDown s.dt, st := countDown s.st }

/-- The timer phase of an iteration (40_execution_cycle.md R106). -/
def State.timerPhase (s : State) (ev : Ev) : State := if s.timerGate ev then s.timerTick else s

/-- The end of every iteration: PrevKey <- Key (40_execution_cycle.md R107). The boot order moves to `running` (log 9). -/
def State.endIteration (s : State) : State := { s with prevKey := s.key, boot := .running }

/-- The phases of an iteration before the executor: pause toggle, then key-wait resolution (40_execution_cycle.md R100). -/
def State.beforeStep (s : State) (ev : Ev) : State := ((s.sampleKeys ev).togglePause ev).resolveKeyWait

/-- The phases after the executor: timer, then the end of the iteration (40_execution_cycle.md R100). -/
def State.afterStep (s : State) (ev : Ev) : State := (s.timerPhase ev).endIteration

/-- One iteration (40_execution_cycle.md R100). In FAULTED it takes the key sample alone (R101). -/
def iterate (ev : Ev) (s : State) : Host.Outcome State Fault Refusal :=
  if s.faulted then .next (s.sampleKeys ev).endIteration
  else if (s.beforeStep ev).stepGate ev then mapNext (·.afterStep ev) (executorStep (s.beforeStep ev))
  else .next ((s.beforeStep ev).afterStep ev)

/-- One move of the host (40_execution_cycle.md R112). An iteration may run only after a successful Load that followed the last Reset
(70_reset_and_hazards.md R256, R257), and Load has one window (R255). -/
def runOp (op : HostOp) (s : State) : Host.Outcome State Fault Refusal :=
  match op with
  | .iterate ev =>
    match s.boot with
    | .fresh => .refused .iterationBeforeLoad
    | .failed e => .refused (.iterationAfterFailedLoad e)
    | .loaded | .running => iterate ev s
  | .reset => .next s.doReset
  | .load file => if s.boot.mayLoad then .next (s.doLoad file) else .refused .loadOutsideWindow
  | .setCycleHz hz => .next (s.setCycleHz hz)

/-- The address a word is placed at, so that the next fetch reads it: PC, or PROG_BASE where no fetch from PC is possible. -/
def State.fetchPlace (s : State) : Word := if s.pc.toNat > 0x0FFE then BitVec.ofNat 16 Config.progBase else s.pc

/-- The input record of the iteration that runs a placed word: `exec_due` = 1, no key held and every other strobe 0, as
95_test_vectors.md says under Conventions, with a free random byte (log 3, log 13). -/
def State.placedEv (s : State) : Ev where
  pauseToggle := false
  keysIn      := 0
  execDue     := true
  stepReq     := false
  timerDue    := false
  rndIn       := Config.freeRandom s.draws

/-- A state whose next step fetches and runs the word `w` (log 13): the word's two bytes at PC, big-endian, as a Load that succeeded
would leave them, the gates of 40_execution_cycle.md R90 open, and an iteration put before the moves of the host. -/
def State.placeWord (s : State) (w : Word) : State :=
  { s with
    mem := s.mem.writeBytes s.fetchPlace.toNat [w.extractLsb' 8 8, w.extractLsb' 0 8],
    pc := s.fetchPlace, faulted := false, paused := false, awaiting := false,
    boot := if s.boot.mayIterate then s.boot else .loaded,
    host := .iterate s.placedEv :: s.host }

end Sys2Proof.Machine
end

