-- ==== Sys2Proof/Machine/Step.lean ====
section
/-! DEFINITION. One step of the machine: one move of the host (log 1). -/

namespace Sys2Proof.Machine

/-- One step: the host's oldest pending move is made and taken off the list; with none left, a free one is made (log 1, log 2). -/
def step (s : State) : Host.Outcome State Fault Refusal :=
  mapNext State.consumeOp (runOp s.pendingOp s)

/-- The state with an instruction of the opcode table stored where the next step fetches (log 13). The bits above `nbits` are 0. -/
def State.withFetchWord (s : State) (nbits w : Nat) : State :=
  s.placeWord (BitVec.ofNat 16 (w % 2 ^ nbits))

end Sys2Proof.Machine
end

