-- ==== Sys2Proof/Machine/Outputs.lean ====
section
/-! DEFINITION. The outputs of the block (00_scope.md R13): views of committed state, read between iterations (20_memory.md R63). -/

namespace Sys2Proof.Machine

/-- The `dbg` port (00_scope.md R13, 60_exceptions.md R242). -/
structure Dbg where
  v        : Vector Byte 16
  pc       : Word
  i        : Word
  stack    : Vector Word 16
  sp       : Fin 17
  dt       : Word
  st       : Word
  curInstr : Word
  deriving DecidableEq, Repr

/-- The `status` port: the control state and the fault record (00_scope.md R13, 60_exceptions.md R222). -/
structure Status where
  paused     : Bool
  awaiting   : Bool
  waitReg    : Reg
  faulted    : Bool
  faultCause : BitVec 3
  faultPc    : Word
  faultWord  : Word
  faultAddr  : BitVec 17
  deriving DecidableEq, Repr

/-- `fb_out`: the 2048 pixels, element y·64 + x for pixel (x, y) (00_scope.md R13, 10_state.md R32). -/
def State.fbOut (s : State) : List Bool :=
  (List.finRange 32).flatMap fun y => (List.finRange 64).map fun x => s.fb.pixel x y

/-- The `dbg` output. -/
def State.dbg (s : State) : Dbg where
  v := s.v
  pc := s.pc
  i := s.i
  stack := s.stack
  sp := s.sp
  dt := s.dt
  st := s.st
  curInstr := s.curInstr

/-- The `status` output. -/
def State.status (s : State) : Status where
  paused := s.paused
  awaiting := s.awaiting
  waitReg := s.waitReg
  faulted := s.faulted
  faultCause := s.faultCause.code
  faultPc := s.faultPc
  faultWord := s.faultWord
  faultAddr := s.faultAddr

/-- `sound_active`: ST > 0 (60_exceptions.md R236). -/
def State.soundActive (s : State) : Bool := decide (s.st.toNat > 0)

end Sys2Proof.Machine
end

