-- ==== Sys2Proof/Safety.lean ====
section
/-! DEFINITION. What counts as a good state and a good run, in the terms the statements use. -/

namespace Sys2Proof.Machine

/-! ## The invariants of 10_state.md R42, one clause each -/

/-- DT ≤ 255 and ST ≤ 255. -/
def State.TimersBounded (s : State) : Prop := s.dt.toNat ≤ 255 ∧ s.st.toNat ≤ 255

/-- 0 ≤ SP ≤ 16. -/
def State.SpBounded (s : State) : Prop := s.sp.val ≤ 16

/-- PC ≤ 0x10FE. -/
def State.PcBounded (s : State) : Prop := s.pc.toNat ≤ 0x10FE

/-- Every S[k] with k < SP holds a value p + 2 with p ≤ 0x0FFE. -/
def State.StackHoldsReturns (s : State) : Prop :=
  ∀ (k : Nat) (h : k < 16), k < s.sp.val → ∃ p, p ≤ 0x0FFE ∧ s.stack[k].toNat = p + 2

/-- M[0..79] = FONT_GLYPHS whenever FONT_WRITE_POLICY = FAULT. -/
def State.FontIntact (s : State) : Prop :=
  s.params.fontWritePolicy = .fault → ∀ (k : Nat) (h : k < 80), s.mem.read k = s.params.fontGlyphs[k]

/-- awaiting = 1 implies faulted = 0. -/
def State.WaitIsNotFaulted (s : State) : Prop := s.awaiting = true → s.faulted = false

/-- The six clauses of 10_state.md R42. -/
structure State.Inv (s : State) : Prop where
  timers : s.TimersBounded
  sp     : s.SpBounded
  pc     : s.PcBounded
  stack  : s.StackHoldsReturns
  font   : s.FontIntact
  wait   : s.WaitIsNotFaulted

/-! ## The model's own invariants -/

/-- Memory is in its canonical form and lists only addresses of the 4096 bytes (20_memory.md R50). -/
def State.MemOk (s : State) : Prop := s.mem.wf = true ∧ s.mem.inRange = true

/-- The cause is NONE exactly while the machine is not faulted (60_exceptions.md R221, R222). -/
def State.RecordOk (s : State) : Prop := s.faultCause = .none ↔ s.faulted = false

/-! ## Runs -/

/-- The machine right after creation with given parameters, and the moves its host is going to make. -/
def State.created (p : Params) (ops : List HostOp) : State :=
  { State.reset with mem := Memory.afterReset p.fontGlyphs, params := p, host := ops }

/-- The states of a run: the created machine, and whatever a step reaches. -/
inductive Reachable : State → Prop where
  | created (p : Params) (ops : List HostOp) : Reachable (State.created p ops)
  | step {s t : State} : Reachable s → Sys2Proof.Machine.step s = .next t → Reachable t

/-! ## Endless runs and the fairness premise (40_execution_cycle.md R111) -/

/-- The state with one move of the host given, in place of the moves not yet made. -/
def State.give (s : State) (op : HostOp) : State := { s with host := [op] }

/-- An endless run of iterations on the input records `evs`, one after the other; `σ n` is the state before iteration n.
`evs` is any sequence of records: every sequence of strobes, keys, pause toggles and random bytes is admitted. -/
def Run (evs : Nat → Ev) (σ : Nat → State) : Prop := ∀ n, Sys2Proof.Machine.step ((σ n).give (.iterate (evs n))) = .next (σ (n + 1))

/-- The fairness premise for execution: `exec_due` holds in infinitely many iterations. -/
def FairExec (evs : Nat → Ev) : Prop := ∀ n, ∃ m, n ≤ m ∧ (evs m).execDue = true

/-- The fairness premise for timer claims: `timer_due` holds in infinitely many iterations. -/
def FairTimer (evs : Nat → Ev) : Prop := ∀ n, ∃ m, n ≤ m ∧ (evs m).timerDue = true

/-- No iteration from n on toggles the pause. -/
def NoToggleFrom (evs : Nat → Ev) (n : Nat) : Prop := ∀ m, n ≤ m → (evs m).pauseToggle = false

/-! ## When an iteration runs, and what is in it -/

/-- The host's current move is an iteration on `ev`, after a successful Load (70_reset_and_hazards.md R256, R257). -/
def State.Iterates (s : State) (ev : Ev) : Prop := s.pendingOp = .iterate ev ∧ s.boot.mayIterate = true

/-- `paused` after the iteration's toggle (40_execution_cycle.md R102). -/
def State.pausedNow (s : State) (ev : Ev) : Bool := s.paused ^^ ev.pauseToggle

/-- Key k has a press edge in the iteration (40_execution_cycle.md R104). -/
def State.Edge (s : State) (ev : Ev) (k : Nat) : Prop := ev.keysIn.getLsbD k = true ∧ s.prevKey.getLsbD k = false

/-- The executor runs in the iteration: the machine is not faulted and the executor gate is open after the phases before it, a key wait
that the iteration resolves included (40_execution_cycle.md R90, R105, R108). -/
def State.Runs (s : State) (ev : Ev) : Prop :=
  s.Iterates ev ∧ s.faulted = false ∧ (s.beforeStep ev).stepGate ev = true

/-- The state the execute phase of such an iteration starts from: the keys are sampled, the pause flag is toggled, the key wait is resolved
and the fetched word is recorded (40_execution_cycle.md R93, R102 to R104). -/
def State.atExecute (s : State) (ev : Ev) : State :=
  { s.beforeStep ev with curInstr := s.fetchWord }

/-- The timers of `t` after the timer phase of an iteration whose step left the timers `dt` and `st`: counted down by one, stopping at 0,
where they tick, and unchanged where they do not (60_exceptions.md R235). Subtraction on Nat stops at 0. -/
def State.TimersFrom (t : State) (ticks : Prop) (dt st : Word) : Prop :=
  (ticks → t.dt.toNat = dt.toNat - 1 ∧ t.st.toNat = st.toNat - 1) ∧ (¬ ticks → t.dt = dt ∧ t.st = st)

/-! ## Frames: which fields may differ -/

/-- At most PC differs. -/
def OnlyPc (s t : State) : Prop := t = { s with pc := t.pc }

/-- At most the general registers and PC differ. -/
def OnlyRegsPc (s t : State) : Prop := t = { s with v := t.v, pc := t.pc }

/-- At most memory and PC differ. -/
def OnlyMemPc (s t : State) : Prop := t = { s with mem := t.mem, pc := t.pc }

/-- At most the stack, SP and PC differ. -/
def OnlyStackPc (s t : State) : Prop := t = { s with stack := t.stack, sp := t.sp, pc := t.pc }

/-- At most the display, the general registers and PC differ. -/
def OnlyFbRegsPc (s t : State) : Prop := t = { s with fb := t.fb, v := t.v, pc := t.pc }

/-- Every byte of memory reads as before. -/
def SameMem (s t : State) : Prop := ∀ a, t.mem.read a = s.mem.read a

/-- Every general register outside a list reads as before. -/
def SameRegsBut (l : List Reg) (s t : State) : Prop := ∀ r, r ∉ l → t.reg r = s.reg r

/-- The state after `raise Fault(cause, addr)` at the instruction at PC whose word is cur_instr: the record is written, the rest is
unchanged (60_exceptions.md R222, 40_execution_cycle.md R96). -/
def State.faultedWith (s : State) (cause : FaultCause) (addr : Nat) : State :=
  { s with
    faulted := true, faultCause := cause, faultPc := s.pc, faultWord := s.curInstr, faultAddr := BitVec.ofNat 17 addr }

/-- The first address above 0xFFF of a range that starts at I (20_memory.md R57). -/
def State.firstAbove (s : State) : Nat := if s.i.toNat > 0xFFF then s.i.toNat else 0x1000

/-- A store of `n` bytes at I passes every check of 20_memory.md R55. -/
def State.MayStore (s : State) (n : Nat) : Prop :=
  s.i.toNat + n ≤ 0x1000 ∧ (s.params.fontWritePolicy = .fault → 0x04F < s.i.toNat)

/-! ## Sprites -/

/-- Sprite row `r`, column `c` of the sprite at I has a set bit: bit 7 − c of M[I + r] (44_display.md R193). -/
def State.spriteBit (s : State) (r c : Nat) : Bool := (s.mem.read (s.i.toNat + r)).getLsbD (7 - c)

/-- The sprite of DRW Vx, Vy, n covers the pixel with a set bit (44_display.md R192). -/
def State.Covers (s : State) (x y : Reg) (n : Nibble) (px : Fin 64) (py : Fin 32) : Prop :=
  ∃ r c, r < n.toNat ∧ c < 8 ∧ s.spriteBit r c = true ∧
    px.val = ((s.reg x).toNat % 64 + c) % 64 ∧ py.val = ((s.reg y).toNat % 32 + r) % 32

end Sys2Proof.Machine
end

