-- ==== Sys2Proof/Certificates/Slice0/Obligations.lean ====
section
/-! DEFINITION. The statements for the provers. Each cites the rules of spec/ it formalises; OBLIGATIONS.json lists them. -/

open Sys2Proof Sys2Proof.Machine

/-! ## Encoding -/

/-- 30_encoding.md R71, R84: decoding the encoding of a well-formed instruction gives the instruction, every field kept. -/
def Obligations.DecodeInvertsEncode : Prop :=
  ∀ (z : ZeroGroupDecode) (i : Instr), i.wellFormed z = true →
    decode z (encode i) = i ∧ decodeBytes z (encodeBytes i) = .ok (i, [])

/-- 30_encoding.md R73: every word decodes to a well-formed instruction, and encoding that gives the word back. -/
def Obligations.EveryWordDecodesAndReencodes : Prop :=
  ∀ (z : ZeroGroupDecode) (w : Word), (decode z w).wellFormed z = true ∧ encode (decode z w) = w

/-- 30_encoding.md R84: a word's instruction is the one whose row the word selects, no other row selects it, and the words without a
row are the unhandled space of R79. -/
def Obligations.DecodeFollowsTheOpcodeMap : Prop :=
  ∀ (z : ZeroGroupDecode) (w : Word),
    (∀ r, (decode z w).row z = some r → r ∈ opcodeMap z ∧ w &&& r.mask = r.bits) ∧
    (∀ r ∈ opcodeMap z, w &&& r.mask = r.bits → (decode z w).row z = some r) ∧
    ((decode z w).row z = none ↔ isUnhandledWord z w = true) ∧
    ((decode z w).row z = none → decode z w = .unhandled w)

/-- 30_encoding.md R74: group 0 under both settings, and the words on which the two settings differ. -/
def Obligations.GroupZeroDecodesByParameter : Prop :=
  ∀ w : Word, opField w = 0 →
    decode .lowNibble w =
      (if nField w = 0x0 then .cls (midField w) else if nField w = 0xE then .ret (midField w) else .unhandled w) ∧
    decode .exact w =
      (if w = 0x0000 then .cls 0 else if nField w = 0xE then .ret (midField w) else .unhandled w) ∧
    (decode .lowNibble w ≠ decode .exact w ↔ nField w = 0 ∧ midField w ≠ 0)

/-- 30_encoding.md R84: one word of each family, read by hand from the patterns. -/
def Obligations.SampleWordsDecodeAsWritten : Prop :=
  decode .lowNibble 0x00E0 = .cls 0x0E ∧ decode .lowNibble 0x00EE = .ret 0x0E ∧
  decode .lowNibble 0x2300 = .call 0x300 ∧ decode .lowNibble 0x3205 = .seImm 2 0x05 ∧
  decode .lowNibble 0x8124 = .addReg 1 2 ∧ decode .lowNibble 0xA300 = .ldI 0x300 ∧
  decode .lowNibble 0xC30F = .rnd 3 0x0F ∧ decode .lowNibble 0xD125 = .drw 1 2 5 ∧
  decode .lowNibble 0xE39E = .skp 3 ∧ decode .lowNibble 0xF20A = .ldVxK 2 ∧ decode .lowNibble 0xF265 = .loadRegs 2 ∧
  decode .lowNibble 0x0123 = .unhandled 0x0123 ∧ decode .lowNibble 0x8008 = .unhandled 0x8008

/-- 30_encoding.md R72, R78, R82: the value of an ignored field changes nothing; the assembler's form of an instruction acts as the
instruction. -/
def Obligations.IgnoredFieldsHaveNoEffect : Prop :=
  ∀ (i : Instr) (s : State), exec i.assembled s = exec i s

/-! ## The iteration -/

/-- 40_execution_cycle.md R92 to R95: where the gates are open and the bytes at PC decode to `i`, a step is the execute phase of `i` on
the state with the word recorded, followed by the rest of the iteration. That one step is one move of the host is the model's choice
(log 1). -/
def Obligations.StepRunsTheDecodedInstruction : Prop :=
  ∀ (s : State) (ev : Ev) (i : Instr),
    s.Iterates ev → s.faulted = false → (s.beforeStep ev).stepGate ev = true → s.pc.toNat ≤ 0x0FFE →
    decodeBytes s.params.zeroGroupDecode (s.mem.readBytes s.pc.toNat 2) = .ok (i, []) →
    encode i = s.fetchWord ∧
    step s = mapNext (fun t => (t.afterStep ev).consumeOp) (exec i { s.beforeStep ev with curInstr := s.fetchWord })

/-- 20_memory.md R53: a fetch is big-endian. -/
def Obligations.FetchIsBigEndian : Prop :=
  ∀ s : State, s.fetchWord.toNat = (s.mem.read s.pc.toNat).toNat * 256 + (s.mem.read (s.pc.toNat + 1)).toNat

/-- 40_execution_cycle.md R91: in an iteration whose executor gate is open, a resolved key wait included (R105), a fetch above 0x0FFE
enters FAULTED with FETCH_RANGE; PC and cur_instr stay, and the timers do not tick. The record is written on the state after the phases
before the executor. The fields `boot` and `host` are the model's own (log 1, log 9). -/
def Obligations.FetchAboveMemoryFaults : Prop :=
  ∀ (s : State) (ev : Ev), s.Iterates ev → s.faulted = false → (s.beforeStep ev).stepGate ev = true → s.pc.toNat > 0x0FFE →
    step s = .next (State.consumeOp
      { s.beforeStep ev with
        prevKey := ev.keysIn, boot := .running, pc := s.pc, curInstr := s.curInstr, dt := s.dt, st := s.st,
        faulted := true, faultCause := .fetchRange, faultPc := s.pc, faultWord := 0x0000,
        faultAddr := BitVec.ofNat 17 (if s.pc.toNat > 0x0FFF then s.pc.toNat else 0x1000) })

/-- 40_execution_cycle.md R97, 00_scope.md R17: the meaning of the UNHANDLED row is a no-op but for the event, and a whole step on an
unhandled word (with no timer strobe) advances PC, sends the event, records cur_instr and changes nothing else but what the phases
before the executor write (a resolved key wait included), PrevKey and the model's own fields: `diag`,
which holds the event (log 8), `boot` and `host` (log 1, log 9). -/
def Obligations.UnhandledWordIsANoOpWithAnEvent : Prop :=
  (∀ (s : State) (w : Word),
    exec (.unhandled w) s = .next { s with pc := s.pc + 2, diag := s.diag ++ [.unhandled s.pc w] }) ∧
  (∀ (s : State) (ev : Ev), s.Runs ev → ev.timerDue = false → s.pc.toNat ≤ 0x0FFE →
    isUnhandledWord s.params.zeroGroupDecode s.fetchWord = true →
    step s = .next (State.consumeOp
      { s.beforeStep ev with
        prevKey := ev.keysIn, boot := .running,
        pc := s.pc + 2, curInstr := s.fetchWord, diag := s.diag ++ [.unhandled s.pc s.fetchWord] }))

/-- 40_execution_cycle.md R101: in FAULTED an iteration takes the key sample and does nothing else, and only Reset leaves FAULTED.
The fields `boot` and `host` are the model's own (log 1, log 9). -/
def Obligations.FaultedMachineIsFrozen : Prop :=
  ∀ s : State, s.faulted = true →
    (∀ ev, s.Iterates ev →
      step s = .next (State.consumeOp { s with key := ev.keysIn, prevKey := ev.keysIn, boot := .running })) ∧
    (∀ t, step s = .next t → s.pendingOp ≠ .reset → t.faulted = true)

/-- 40_execution_cycle.md R103, R107: every iteration takes the key sample and ends with PrevKey equal to it. -/
def Obligations.IterationEndsWithTheKeySample : Prop :=
  ∀ (s t : State) (ev : Ev), s.Iterates ev → step s = .next t → t.key = ev.keysIn ∧ t.prevKey = ev.keysIn

/-- 40_execution_cycle.md R102, R103, R104: what an iteration does before the executor. The lowest press edge resolves a key wait,
paused or not; with no edge, or when not awaiting, only the key sample and `paused` change. -/
def Obligations.LowestPressEdgeResolvesTheWait : Prop :=
  ∀ (s : State) (ev : Ev),
    (∀ k, k < 16 → s.awaiting = true → s.Edge ev k → (∀ j, j < k → ¬ s.Edge ev j) →
      s.beforeStep ev =
        { s.setReg s.waitReg (BitVec.ofNat 8 k) with key := ev.keysIn, paused := s.pausedNow ev, awaiting := false }) ∧
    ((s.awaiting = false ∨ ∀ k, k < 16 → ¬ s.Edge ev k) →
      s.beforeStep ev = { s with key := ev.keysIn, paused := s.pausedNow ev })

/-- 40_execution_cycle.md R105, R106, R108, R110: when the executor runs; and an iteration in which it does not run writes the keys, the
pause flag, a resolved key wait and the timers, and nothing else: the timers tick where `timer_due` is 1 and the machine is not paused,
V[wait_reg] and `awaiting` change only where a key wait resolves (R104). The fields `boot` and `host` are the model's own (log 9, log 1). -/
def Obligations.ExecutorGateFollowsTheTable : Prop :=
  ∀ (s : State) (ev : Ev), s.Iterates ev → s.faulted = false →
    ((s.beforeStep ev).stepGate ev = true ↔
      s.pausedNow ev = false ∧ (s.awaiting = false ∨ ∃ k, k < 16 ∧ s.Edge ev k) ∧ (ev.execDue = true ∨ ev.stepReq = true)) ∧
    ((s.beforeStep ev).stepGate ev = false →
      ∃ t, step s = .next t ∧
        t = State.consumeOp { s.beforeStep ev with prevKey := ev.keysIn, boot := .running, dt := t.dt, st := t.st } ∧
        t.TimersFrom (s.pausedNow ev = false ∧ ev.timerDue = true) s.dt s.st ∧
        (s.awaiting = false ∨ (∀ k, k < 16 → ¬ s.Edge ev k) → t.v = s.v ∧ t.awaiting = s.awaiting) ∧
        (∀ k, k < 16 → s.awaiting = true → s.Edge ev k → (∀ j, j < k → ¬ s.Edge ev j) →
          (t.reg s.waitReg).toNat = k ∧ t.awaiting = false) ∧
        t.waitReg = s.waitReg ∧ t.key = ev.keysIn ∧ t.pc = s.pc ∧ t.curInstr = s.curInstr ∧
        t.mem = s.mem ∧ t.fb = s.fb ∧ t.stack = s.stack ∧
        t.sp = s.sp ∧ t.i = s.i ∧ t.faulted = false ∧ t.diag = s.diag ∧ t.paused = s.pausedNow ev ∧
        (∀ r, r ≠ s.waitReg → t.reg r = s.reg r))

/-- 40_execution_cycle.md R109: while a wait goes on, no fetch happens; the iteration changes the keys, `paused`, and the timers at
most (R106: the wait does not stop them), and the model's own fields `boot` and `host` (log 9, log 1). -/
def Obligations.AwaitingMachineFetchesNothing : Prop :=
  ∀ (s : State) (ev : Ev), s.Iterates ev → s.faulted = false → s.awaiting = true → (∀ k, k < 16 → ¬ s.Edge ev k) →
    ∃ t, step s = .next t ∧
      t = State.consumeOp { s with
        key := ev.keysIn, prevKey := ev.keysIn, paused := s.pausedNow ev, boot := .running, dt := t.dt, st := t.st } ∧
      (s.pausedNow ev = true ∨ ev.timerDue = false → t.dt = s.dt ∧ t.st = s.st) ∧
      (s.pausedNow ev = false → ev.timerDue = true → t.dt.toNat = s.dt.toNat - 1 ∧ t.st.toNat = s.st.toNat - 1)

/-- 10_state.md R36, 60_exceptions.md R243: a paused iteration executes nothing and ticks nothing; a key wait may still resolve.
The fields `boot` and `host` are the model's own (log 9, log 1). -/
def Obligations.PauseStopsExecutorAndTimers : Prop :=
  ∀ (s : State) (ev : Ev), s.Iterates ev → s.faulted = false → s.pausedNow ev = true →
    ∃ t, step s = .next t ∧
      t = State.consumeOp { s with
        key := ev.keysIn, prevKey := ev.keysIn, paused := true, boot := .running, v := t.v, awaiting := t.awaiting } ∧
      (∀ r, r ≠ s.waitReg → t.reg r = s.reg r) ∧ (s.awaiting = false → t.v = s.v ∧ t.awaiting = false)

/-- 60_exceptions.md R235: the timer unit. Subtraction on Nat stops at 0. -/
def Obligations.TimersCountDownToZero : Prop :=
  ∀ s : State,
    s.timerTick.dt.toNat = s.dt.toNat - 1 ∧ s.timerTick.st.toNat = s.st.toNat - 1 ∧
    s.timerTick = { s with dt := s.timerTick.dt, st := s.timerTick.st }

/-- 40_execution_cycle.md R106, R110: in every iteration in which the executor runs, a resolved key wait included, the tick follows the
step, and happens where `timer_due` is 1 and the machine is not faulted after the step.
The fields `boot` and `host` are the model's own (log 9, log 1). -/
def Obligations.TickFollowsTheStep : Prop :=
  ∀ (s : State) (ev : Ev) (i : Instr) (u : State),
    s.Runs ev → s.pc.toNat ≤ 0x0FFE → decode s.params.zeroGroupDecode s.fetchWord = i →
    exec i (s.atExecute ev) = .next u →
    ∃ t, step s = .next t ∧ t.TimersFrom (ev.timerDue = true ∧ u.faulted = false) u.dt u.st ∧
      t = State.consumeOp { u with prevKey := ev.keysIn, boot := .running, dt := t.dt, st := t.st }

/-- 45_timer_key.md R200, R202: in an iteration with a timer strobe, one that resolves a key wait into V[x] included,
Fx15 leaves the written value less the tick, and Fx07 reads DT before
the tick. -/
def Obligations.TimerAccessSeesTheOldCount : Prop :=
  ∀ (s : State) (ev : Ev) (x : Reg), s.Runs ev → ev.timerDue = true → s.pc.toNat ≤ 0x0FFE →
    (s.fetchWord = encode (.ldDtVx x) → ∃ t, step s = .next t ∧ t.dt.toNat = ((s.beforeStep ev).reg x).toNat - 1) ∧
    (s.fetchWord = encode (.ldVxDt x) → ∃ t, step s = .next t ∧
      (t.reg x).toNat = s.dt.toNat % 256 ∧ t.dt.toNat = s.dt.toNat - 1)

/-! ## Reset, Load, CYCLE_HZ -/

/-- 70_reset_and_hazards.md R250, 10_state.md R41: Reset, from any state, gives every element its reset value and copies the font in; it
sends no event and changes no parameter. The constant `State.reset`, which lists no memory, is what the operation gives under the
default parameters on a machine without pending moves; what Reset leaves in the model's own fields is the model's choice (log 14). -/
def Obligations.ResetRestoresEveryElement : Prop :=
  (∀ s : State, s.params = Config.defaults → s.host = [] → s.draws = 0 → s.diag = [] → s.doReset = State.reset) ∧
  ∀ s : State, s.pendingOp = .reset →
    ∃ t, step s = .next t ∧
      (∀ a (h : a < 80), t.mem.read a = s.params.fontGlyphs[a]) ∧ (∀ a, 80 ≤ a → a < 4096 → t.mem.read a = 0) ∧
      (∀ r, t.reg r = 0) ∧ t.i = 0 ∧ t.pc = 0x0200 ∧ (∀ k (h : k < 16), t.stack[k] = 0) ∧ t.sp.val = 0 ∧
      (∀ x y, t.fb.pixel x y = false) ∧ t.dt = 0 ∧ t.st = 0 ∧ t.key = 0 ∧ t.prevKey = 0 ∧
      t.paused = false ∧ t.awaiting = false ∧ t.waitReg = 0 ∧ t.curInstr = 0 ∧
      t.faulted = false ∧ t.faultCause = .none ∧ t.faultPc = 0 ∧ t.faultWord = 0 ∧ t.faultAddr = 0 ∧
      t.diag = s.diag ∧ t.params = s.params

/-- 70_reset_and_hazards.md R255: Load writes all its bytes at 0x200 and above and nothing else. The field `boot`, which holds
the answer LOAD_OK, is the model's own (log 9). -/
def Obligations.LoadStoresTheProgram : Prop :=
  ∀ (s : State) (b : List Byte), s.pendingOp = .load (some b) → s.boot = .fresh → s.MemOk → b.length ≤ 3584 →
    ∃ t, step s = .next t ∧ t = State.consumeOp { s with mem := t.mem, boot := .loaded } ∧
      (∀ k (h : k < b.length), t.mem.read (0x200 + k) = b[k]) ∧
      (∀ a, a < 0x200 ∨ 0x200 + b.length ≤ a → t.mem.read a = s.mem.read a)

/-- 70_reset_and_hazards.md R256, R257: a load error writes nothing; no iteration may follow until a new Reset and a successful Load, nor
may one run before the first successful Load; and a step that first allows iterations is a successful Load on a freshly reset machine.
The field `boot`, which holds the place in the boot order, and the names of the refusals are the model's own (log 9). -/
def Obligations.FailedLoadStopsTheRun : Prop :=
  (∀ (s : State) (b : List Byte), s.pendingOp = .load (some b) → s.boot = .fresh → b.length > 3584 →
    step s = .next (State.consumeOp { s with boot := .failed .tooLarge })) ∧
  (∀ s : State, s.pendingOp = .load none → s.boot = .fresh →
    step s = .next (State.consumeOp { s with boot := .failed .unreadable })) ∧
  (∀ (s : State) (e : LoadError) (ev : Ev), s.boot = .failed e → s.pendingOp = .iterate ev →
    step s = .refused (.iterationAfterFailedLoad e)) ∧
  (∀ (s t : State) (e : LoadError), s.boot = .failed e → step s = .next t → s.pendingOp ≠ .reset → t.boot = .failed e) ∧
  (∀ (s t : State), s.pendingOp = .reset → step s = .next t → t.boot = .fresh) ∧
  (∀ (s : State) (ev : Ev), s.boot = .fresh → s.pendingOp = .iterate ev → step s = .refused .iterationBeforeLoad) ∧
  (∀ (s t : State), s.boot.mayIterate = false → step s = .next t → t.boot.mayIterate = true →
    s.boot = .fresh ∧ ∃ b, s.pendingOp = .load (some b) ∧ b.length ≤ 3584)

/-- 00_scope.md R15: a change of CYCLE_HZ touches no state of the block, and no instruction's effect depends on the rate.
That the rate stands in State is the model's choice (log 4, log 10). -/
def Obligations.CycleRateTouchesNoState : Prop :=
  (∀ (s : State) (hz : Nat), s.pendingOp = .setCycleHz hz →
    step s = .next (State.consumeOp { s with params := { s.params with cycleHz := some hz } })) ∧
  (∀ (i : Instr) (s : State) (hz : Nat), exec i (s.setCycleHz hz) = mapNext (·.setCycleHz hz) (exec i s))

/-! ## Control flow -/

/-- 41_control_flow.md R122, R128: JP and JP V0 write PC alone; the sum of JP V0 is not wrapped to 12 bits. -/
def Obligations.JumpsSetThePc : Prop :=
  ∀ (s : State) (a : Addr),
    (∃ t, exec (.jp a) s = .next t ∧ OnlyPc s t ∧ t.pc.toNat = a.toNat ∧ SameMem s t) ∧
    (∃ t, exec (.jpV0 a) s = .next t ∧ OnlyPc s t ∧ t.pc.toNat = (s.reg 0).toNat + a.toNat ∧ SameMem s t)

/-- 41_control_flow.md R123: CALL pushes p + 2 and jumps; with 16 slots in use it overflows. -/
def Obligations.CallPushesTheReturnAddress : Prop :=
  ∀ (s : State) (a : Addr),
    (∀ h : s.sp.val < 16, ∃ t, exec (.call a) s = .next t ∧ OnlyStackPc s t ∧ SameMem s t ∧
      t.pc.toNat = a.toNat ∧ t.sp.val = s.sp.val + 1 ∧ t.stack[s.sp.val] = s.pc + 2 ∧
      (∀ k (hk : k < 16), k ≠ s.sp.val → t.stack[k] = s.stack[k])) ∧
    (s.sp.val = 16 → exec (.call a) s = .next (s.faultedWith .stackOverflow 16))

/-- 41_control_flow.md R121, 10_state.md R28: RET pops into PC and leaves the slot as it was; on an empty stack it underflows. -/
def Obligations.ReturnPopsIntoThePc : Prop :=
  ∀ (s : State) (nn : Byte),
    (∀ h : 0 < s.sp.val, ∃ t, exec (.ret nn) s = .next t ∧ OnlyStackPc s t ∧ SameMem s t ∧
      t.pc = s.stack[s.sp.val - 1] ∧ t.sp.val = s.sp.val - 1 ∧ t.stack = s.stack) ∧
    (s.sp.val = 0 → exec (.ret nn) s = .next (s.faultedWith .stackUnderflow 0))

/-- 95_test_vectors.md L1-5, 90_conflicts.md C5: a RET right after a CALL comes back to p + 2, with the old SP; only the slot the
return address was pushed to may differ. -/
def Obligations.CallThenReturnComesBack : Prop :=
  ∀ (s t : State) (a : Addr) (nn : Byte), s.sp.val < 16 → exec (.call a) s = .next t →
    ∃ u, exec (.ret nn) t = .next u ∧ OnlyStackPc s u ∧ u.pc = s.pc + 2 ∧ u.sp = s.sp ∧
      (∀ k (hk : k < 16), k ≠ s.sp.val → u.stack[k] = s.stack[k])

/-- 41_control_flow.md R120, R124 to R127: the register and immediate skips write PC alone. -/
def Obligations.SkipsCompareRegisters : Prop :=
  ∀ (s : State) (x y : Reg) (kk : Byte) (n : Nibble),
    exec (.seImm x kk) s = .next { s with pc := if s.reg x = kk then s.pc + 4 else s.pc + 2 } ∧
    exec (.sneImm x kk) s = .next { s with pc := if s.reg x = kk then s.pc + 2 else s.pc + 4 } ∧
    exec (.seReg x y n) s = .next { s with pc := if s.reg x = s.reg y then s.pc + 4 else s.pc + 2 } ∧
    exec (.sneReg x y n) s = .next { s with pc := if s.reg x = s.reg y then s.pc + 2 else s.pc + 4 }

/-- 41_control_flow.md R129, R130, R131: the key skips read the level of key V[x]; above 15 KEY_INDEX_POLICY decides. -/
def Obligations.KeySkipsReadTheLevel : Prop :=
  ∀ (s : State) (x : Reg),
    (∀ held : Bool,
      ((s.reg x).toNat ≤ 15 ∧ held = s.key.getLsbD (s.reg x).toNat) ∨
      ((s.reg x).toNat > 15 ∧ s.params.keyIndexPolicy = .mask ∧ held = s.key.getLsbD ((s.reg x).toNat % 16)) ∨
      ((s.reg x).toNat > 15 ∧ s.params.keyIndexPolicy = .notPressed ∧ held = false) →
      exec (.skp x) s = .next { s with pc := if held = true then s.pc + 4 else s.pc + 2 } ∧
      exec (.sknp x) s = .next { s with pc := if held = true then s.pc + 2 else s.pc + 4 }) ∧
    ((s.reg x).toNat > 15 → s.params.keyIndexPolicy = .fault →
      exec (.skp x) s = .next (s.faultedWith .keyIndex (s.reg x).toNat) ∧
      exec (.sknp x) s = .next (s.faultedWith .keyIndex (s.reg x).toNat))

/-! ## Registers and arithmetic -/

/-- 42_alu.md R141, R142, R143: the loads and the immediate add write V[x] alone, and no flag (x = 0xF writes VF as the destination). -/
def Obligations.LoadsAndImmediateAdd : Prop :=
  ∀ (s : State) (x y : Reg) (kk : Byte),
    (∃ t, exec (.ldImm x kk) s = .next t ∧ OnlyRegsPc s t ∧ SameRegsBut [x] s t ∧ SameMem s t ∧
      t.pc = s.pc + 2 ∧ t.reg x = kk) ∧
    (∃ t, exec (.addImm x kk) s = .next t ∧ OnlyRegsPc s t ∧ SameRegsBut [x] s t ∧ SameMem s t ∧
      t.pc = s.pc + 2 ∧ (t.reg x).toNat = ((s.reg x).toNat + kk.toNat) % 256) ∧
    (∃ t, exec (.ldReg x y) s = .next t ∧ OnlyRegsPc s t ∧ SameRegsBut [x] s t ∧ SameMem s t ∧
      t.pc = s.pc + 2 ∧ t.reg x = s.reg y)

/-- 42_alu.md R144, R145, R146: the bitwise operations, bit by bit; VF is not written unless x = 0xF. -/
def Obligations.BitwiseOperations : Prop :=
  ∀ (s : State) (x y : Reg),
    (∃ t, exec (.orReg x y) s = .next t ∧ OnlyRegsPc s t ∧ SameRegsBut [x] s t ∧ SameMem s t ∧ t.pc = s.pc + 2 ∧
      ∀ k, k < 8 → (t.reg x).getLsbD k = ((s.reg x).getLsbD k || (s.reg y).getLsbD k)) ∧
    (∃ t, exec (.andReg x y) s = .next t ∧ OnlyRegsPc s t ∧ SameRegsBut [x] s t ∧ SameMem s t ∧ t.pc = s.pc + 2 ∧
      ∀ k, k < 8 → (t.reg x).getLsbD k = ((s.reg x).getLsbD k && (s.reg y).getLsbD k)) ∧
    (∃ t, exec (.xorReg x y) s = .next t ∧ OnlyRegsPc s t ∧ SameRegsBut [x] s t ∧ SameMem s t ∧ t.pc = s.pc + 2 ∧
      ∀ k, k < 8 → (t.reg x).getLsbD k = ((s.reg x).getLsbD k ^^ (s.reg y).getLsbD k))

/-- 42_alu.md R147: ADD Vx, Vy with its carry; with x = 0xF the carry is what is left. -/
def Obligations.AddSetsTheCarry : Prop :=
  ∀ (s : State) (x y : Reg),
    ∃ t, exec (.addReg x y) s = .next t ∧ OnlyRegsPc s t ∧ SameRegsBut [x, vf] s t ∧ SameMem s t ∧ t.pc = s.pc + 2 ∧
      (x ≠ vf → (t.reg x).toNat = ((s.reg x).toNat + (s.reg y).toNat) % 256) ∧
      (t.reg vf).toNat = if (s.reg x).toNat + (s.reg y).toNat > 255 then 1 else 0

/-- 42_alu.md R148, R149, R150: SUB and SUBN on the integers, reduced mod 256, with the no-borrow flag of the operands before the write;
LEGACY_PARITY makes the test strict. -/
def Obligations.SubtractionsSetNoBorrow : Prop :=
  ∀ (s : State) (x y : Reg),
    (∃ t, exec (.subReg x y) s = .next t ∧ OnlyRegsPc s t ∧ SameRegsBut [x, vf] s t ∧ SameMem s t ∧ t.pc = s.pc + 2 ∧
      (x ≠ vf → ((t.reg x).toNat : Int) = (((s.reg x).toNat : Int) - (s.reg y).toNat) % 256) ∧
      (t.reg vf).toNat =
        if (if s.params.legacyParity then (s.reg x).toNat > (s.reg y).toNat else (s.reg x).toNat ≥ (s.reg y).toNat) then 1 else 0) ∧
    (∃ t, exec (.subnReg x y) s = .next t ∧ OnlyRegsPc s t ∧ SameRegsBut [x, vf] s t ∧ SameMem s t ∧ t.pc = s.pc + 2 ∧
      (x ≠ vf → ((t.reg x).toNat : Int) = (((s.reg y).toNat : Int) - (s.reg x).toNat) % 256) ∧
      (t.reg vf).toNat =
        if (if s.params.legacyParity then (s.reg y).toNat > (s.reg x).toNat else (s.reg y).toNat ≥ (s.reg x).toNat) then 1 else 0)

/-- 42_alu.md R151, R152: SHR by one bit, with the bit shifted out in VF; for x = 0xF the parameter SHIFT_VF_ORDER. -/
def Obligations.ShiftRight : Prop :=
  ∀ (s : State) (x y : Reg),
    ∃ t, exec (.shr x y) s = .next t ∧ OnlyRegsPc s t ∧ SameRegsBut [x, vf] s t ∧ SameMem s t ∧ t.pc = s.pc + 2 ∧
      (x ≠ vf → (t.reg x).toNat = (s.reg x).toNat / 2 ∧ (t.reg vf).toNat = (s.reg x).toNat % 2) ∧
      (x = vf → s.params.shiftVfOrder = .listedOrder → (t.reg vf).toNat = (s.reg vf).toNat / 2) ∧
      (x = vf → s.params.shiftVfOrder = .sequential → (t.reg vf).toNat = 0) ∧
      (x = vf → s.params.shiftVfOrder = .flagWins → (t.reg vf).toNat = (s.reg vf).toNat % 2)

/-- 42_alu.md R151, R153, R154: SHL by one bit, with bit 7 in VF; for x = 0xF the parameter SHIFT_VF_ORDER; under LEGACY_PARITY the byte
moves right. The case x = 0xF under LEGACY_PARITY is the model's reading (log 11) and is not stated here. -/
def Obligations.ShiftLeft : Prop :=
  ∀ (s : State) (x y : Reg),
    ∃ t, exec (.shl x y) s = .next t ∧ OnlyRegsPc s t ∧ SameRegsBut [x, vf] s t ∧ SameMem s t ∧ t.pc = s.pc + 2 ∧
      (x ≠ vf → (t.reg vf).toNat = (s.reg x).toNat / 128) ∧
      (x ≠ vf → s.params.legacyParity = false → (t.reg x).toNat = (s.reg x).toNat * 2 % 256) ∧
      (x ≠ vf → s.params.legacyParity = true → (t.reg x).toNat = (s.reg x).toNat / 2) ∧
      (x = vf → s.params.legacyParity = false → s.params.shiftVfOrder = .listedOrder →
        (t.reg vf).toNat = (s.reg vf).toNat * 2 % 256) ∧
      (x = vf → s.params.legacyParity = false → s.params.shiftVfOrder = .sequential →
        (t.reg vf).toNat = 2 * ((s.reg vf).toNat / 128)) ∧
      (x = vf → s.params.legacyParity = false → s.params.shiftVfOrder = .flagWins →
        (t.reg vf).toNat = (s.reg vf).toNat / 128)

/-- 42_alu.md R155: RND masks the iteration's `rnd_in`, whatever it is; kk = 0 gives 0 and kk = 0xFF the draw itself. -/
def Obligations.RandomIsTheMaskedDraw : Prop :=
  ∀ (s : State) (ev : Ev) (x : Reg) (kk : Byte), s.pendingOp = .iterate ev →
    ∃ t, exec (.rnd x kk) s = .next t ∧ OnlyRegsPc s t ∧ SameRegsBut [x] s t ∧ SameMem s t ∧ t.pc = s.pc + 2 ∧
      (∀ k, k < 8 → (t.reg x).getLsbD k = (ev.rndIn.getLsbD k && kk.getLsbD k)) ∧
      (kk = 0 → t.reg x = 0) ∧ (kk = 0xFF → t.reg x = ev.rndIn)

/-! ## Index register and memory -/

/-- 43_index_memory.md R170, R171, R172: LD I, ADD I and LD F write I and PC alone. -/
def Obligations.IndexRegisterWrites : Prop :=
  ∀ (s : State) (x : Reg) (a : Addr),
    (∃ t, exec (.ldI a) s = .next t ∧ t = { s with i := t.i, pc := s.pc + 2 } ∧ SameMem s t ∧ t.i.toNat = a.toNat) ∧
    (∃ t, exec (.addI x) s = .next t ∧ t = { s with i := t.i, pc := s.pc + 2 } ∧ SameMem s t ∧
      t.i.toNat = (s.i.toNat + (s.reg x).toNat) % 65536) ∧
    (∃ t, exec (.ldF x) s = .next t ∧ t = { s with i := t.i, pc := s.pc + 2 } ∧ SameMem s t ∧
      t.i.toNat = 5 * ((s.reg x).toNat % 16))

/-- 43_index_memory.md R173, 20_memory.md R55, R57: LD B stores the three decimal digits at I, I + 1, I + 2, or faults and stores
nothing. -/
def Obligations.BcdStoresThreeDigits : Prop :=
  ∀ (s : State) (x : Reg), s.mem.wf = true →
    (s.MayStore 3 → ∃ t, exec (.ldB x) s = .next t ∧ OnlyMemPc s t ∧ t.pc = s.pc + 2 ∧
      (t.mem.read s.i.toNat).toNat * 100 + (t.mem.read (s.i.toNat + 1)).toNat * 10 + (t.mem.read (s.i.toNat + 2)).toNat
        = (s.reg x).toNat ∧
      (t.mem.read s.i.toNat).toNat ≤ 2 ∧ (t.mem.read (s.i.toNat + 1)).toNat ≤ 9 ∧ (t.mem.read (s.i.toNat + 2)).toNat ≤ 9 ∧
      (∀ a, a < s.i.toNat ∨ s.i.toNat + 3 ≤ a → t.mem.read a = s.mem.read a)) ∧
    (s.params.fontWritePolicy = .fault → s.i.toNat ≤ 0x04F →
      exec (.ldB x) s = .next (s.faultedWith .fontWrite s.i.toNat)) ∧
    (s.i.toNat + 2 > 0xFFF → exec (.ldB x) s = .next (s.faultedWith .dataRange s.firstAbove))

/-- 43_index_memory.md R174, 20_memory.md R55, R57: LD [I], Vx stores V0 to Vx at I and above, leaves I, or faults and stores nothing. -/
def Obligations.StoreRegistersBlock : Prop :=
  ∀ (s : State) (x : Reg), s.mem.wf = true →
    (s.MayStore (x.toNat + 1) → ∃ t, exec (.storeRegs x) s = .next t ∧ OnlyMemPc s t ∧ t.pc = s.pc + 2 ∧
      (∀ r : Reg, r.toNat ≤ x.toNat → t.mem.read (s.i.toNat + r.toNat) = s.reg r) ∧
      (∀ a, a < s.i.toNat ∨ s.i.toNat + x.toNat < a → t.mem.read a = s.mem.read a)) ∧
    (s.params.fontWritePolicy = .fault → s.i.toNat ≤ 0x04F →
      exec (.storeRegs x) s = .next (s.faultedWith .fontWrite s.i.toNat)) ∧
    (s.i.toNat + x.toNat > 0xFFF → exec (.storeRegs x) s = .next (s.faultedWith .dataRange s.firstAbove))

/-- 43_index_memory.md R175, 20_memory.md R55, R57: LD Vx, [I] loads V0 to Vx from I and above, leaves I, or faults and loads nothing. -/
def Obligations.LoadRegistersBlock : Prop :=
  ∀ (s : State) (x : Reg),
    (s.i.toNat + x.toNat ≤ 0xFFF → ∃ t, exec (.loadRegs x) s = .next t ∧ OnlyRegsPc s t ∧ SameMem s t ∧ t.pc = s.pc + 2 ∧
      ∀ r : Reg, t.reg r = if r.toNat ≤ x.toNat then s.mem.read (s.i.toNat + r.toNat) else s.reg r) ∧
    (s.i.toNat + x.toNat > 0xFFF → exec (.loadRegs x) s = .next (s.faultedWith .dataRange s.firstAbove))

/-- 20_memory.md R62: the bytes an Fx55 stores over the next instruction are what the next fetch reads. -/
def Obligations.StoreIsSeenByTheNextFetch : Prop :=
  ∀ (s t : State) (x r q : Reg), s.mem.wf = true → s.MayStore (x.toNat + 1) → exec (.storeRegs x) s = .next t →
    q.toNat = r.toNat + 1 → q.toNat ≤ x.toNat → s.i.toNat + r.toNat = s.pc.toNat + 2 →
    t.fetchWord.toNat = (s.reg r).toNat * 256 + (s.reg q).toNat

/-! ## Display -/

/-- 44_display.md R191: CLS clears every pixel and writes nothing else but PC. -/
def Obligations.ClearZeroesEveryPixel : Prop :=
  ∀ (s : State) (nn : Byte), ∃ t, exec (.cls nn) s = .next t ∧ t = { s with fb := t.fb, pc := s.pc + 2 } ∧ SameMem s t ∧
    ∀ x y, t.fb.pixel x y = false

/-- 44_display.md R192, R193: DRW flips exactly the pixels its set bits cover, wrapping at both edges, and VF says whether one of them was
set; n = 0 draws nothing and cannot fault; a row above 0xFFF faults and changes nothing. Which columns a byte covers rests on the bit
order of R193, the spec's own decision D11 from general knowledge (log 12). -/
def Obligations.DrawXorsTheSprite : Prop :=
  ∀ (s : State) (x y : Reg) (n : Nibble),
    (n = 0 ∨ s.i.toNat + n.toNat ≤ 0x1000 →
      ∃ t, exec (.drw x y n) s = .next t ∧ OnlyFbRegsPc s t ∧ SameRegsBut [vf] s t ∧ SameMem s t ∧ t.pc = s.pc + 2 ∧
        (∀ px py, (s.Covers x y n px py → t.fb.pixel px py = !s.fb.pixel px py) ∧
          (¬ s.Covers x y n px py → t.fb.pixel px py = s.fb.pixel px py)) ∧
        ((∃ px py, s.Covers x y n px py ∧ s.fb.pixel px py = true) → t.reg vf = 1) ∧
        ((¬ ∃ px py, s.Covers x y n px py ∧ s.fb.pixel px py = true) → t.reg vf = 0)) ∧
    (n ≠ 0 → s.i.toNat + n.toNat > 0x1000 → exec (.drw x y n) s = .next (s.faultedWith .dataRange s.firstAbove))

/-- 44_display.md R194, from R192: the same sprite drawn again at the same position restores the display. The second VF is 1 iff the sprite
has a set bit over a pixel that was clear before the first draw; where all those pixels were clear, that is R194's "has at least one
set bit", which R192 does not give on every display (log 18). The registers V[x] and V[y] keep their values, so the premise
excludes VF as a coordinate. Which pixels the sprite covers rests on the bit order of log 12. -/
def Obligations.DrawingTwiceRestoresTheDisplay : Prop :=
  ∀ (s t : State) (x y : Reg) (n : Nibble), x ≠ vf → y ≠ vf → (n = 0 ∨ s.i.toNat + n.toNat ≤ 0x1000) →
    exec (.drw x y n) s = .next t →
    ∃ u, exec (.drw x y n) t = .next u ∧ u.fb = s.fb ∧
      (u.reg vf = 1 ↔ ∃ px py, s.Covers x y n px py ∧ s.fb.pixel px py = false) ∧
      ((∀ px py, s.fb.pixel px py = false) →
        (u.reg vf = 1 ↔ ∃ r c, r < n.toNat ∧ c < 8 ∧ s.spriteBit r c = true))

/-- 10_state.md R32: `fb_out` has 2048 elements, and pixel (x, y) is element y·64 + x. -/
def Obligations.DisplayOutputIsRowMajor : Prop :=
  ∀ s : State, s.fbOut.length = 2048 ∧
    ∀ (x : Fin 64) (y : Fin 32), s.fbOut[y.val * 64 + x.val]? = some (s.fb.pixel x y)

/-! ## Timers and the key wait -/

/-- 45_timer_key.md R200, R202, R203: Fx07 reads the low byte of DT; Fx15 and Fx18 write the timers, zero-extended. -/
def Obligations.TimerInstructions : Prop :=
  ∀ (s : State) (x : Reg),
    (∃ t, exec (.ldVxDt x) s = .next t ∧ OnlyRegsPc s t ∧ SameRegsBut [x] s t ∧ SameMem s t ∧ t.pc = s.pc + 2 ∧
      (t.reg x).toNat = s.dt.toNat % 256) ∧
    (∃ t, exec (.ldDtVx x) s = .next t ∧ t = { s with dt := t.dt, pc := s.pc + 2 } ∧ SameMem s t ∧
      t.dt.toNat = (s.reg x).toNat) ∧
    (∃ t, exec (.ldStVx x) s = .next t ∧ t = { s with st := t.st, pc := s.pc + 2 } ∧ SameMem s t ∧
      t.st.toNat = (s.reg x).toNat)

/-- 45_timer_key.md R201: Fx0A starts the wait, advances PC and writes no register. -/
def Obligations.KeyWaitStarts : Prop :=
  ∀ (s : State) (x : Reg), exec (.ldVxK x) s = .next { s with awaiting := true, waitReg := x, pc := s.pc + 2 }

/-- 45_timer_key.md R201, 40_execution_cycle.md R104, R107: a step that runs Fx0A leaves the machine awaiting, whatever keys are held (a
held key is in PrevKey, so it has no edge in the next iteration); and in any iteration on an awaiting machine, however long the wait, in
which key k is the lowest newly pressed one and no strobe asks for a step, k goes to V[wait_reg] and the wait ends. -/
def Obligations.KeyWaitEndsWithTheKey : Prop :=
  (∀ (s : State) (ev : Ev) (x : Reg),
    s.Iterates ev → s.faulted = false → (s.beforeStep ev).stepGate ev = true → s.pc.toNat ≤ 0x0FFE →
    s.fetchWord = encode (.ldVxK x) →
    ∃ t, step s = .next t ∧ t.awaiting = true ∧ t.waitReg = x ∧ t.pc = s.pc + 2 ∧ t.v = (s.beforeStep ev).v ∧
      t.faulted = false ∧ t.prevKey = ev.keysIn) ∧
  (∀ (s : State) (ev : Ev) (k : Nat),
    s.Iterates ev → s.faulted = false → s.awaiting = true → ev.execDue = false → ev.stepReq = false →
    k < 16 → s.Edge ev k → (∀ j, j < k → ¬ s.Edge ev j) →
    ∃ u, step s = .next u ∧ (u.reg s.waitReg).toNat = k ∧ u.awaiting = false ∧ u.pc = s.pc ∧ u.curInstr = s.curInstr ∧
      SameRegsBut [s.waitReg] s u)

/-! ## The whole machine -/

/-- 60_exceptions.md R222, R223, R224: an instruction that faults changes nothing but the record, and can raise only its own causes. -/
def Obligations.FaultsArePreciseAndOfTheirKind : Prop :=
  ∀ (i : Instr) (s t : State), exec i s = .next t → s.faulted = false → t.faulted = true →
    t = { s with
      faulted := true, faultCause := t.faultCause, faultPc := s.pc, faultWord := s.curInstr, faultAddr := t.faultAddr } ∧
    match i with
    | .call _ => t.faultCause = .stackOverflow
    | .ret _ => t.faultCause = .stackUnderflow
    | .skp _ | .sknp _ => t.faultCause = .keyIndex
    | .drw _ _ _ | .loadRegs _ => t.faultCause = .dataRange
    | .ldB _ | .storeRegs _ => t.faultCause = .fontWrite ∨ t.faultCause = .dataRange
    | _ => False

/-- 60_exceptions.md R222, R223: in an iteration whose executor gate is open, a resolved key wait included, a step into FAULTED leaves the
state that the phases before the executor left, but for the fault record, cur_instr and PrevKey; the timers do not tick. The fields
`boot` and `host` are the model's own (log 1, log 9). -/
def Obligations.FaultingStepCommitsNothing : Prop :=
  ∀ (s t : State) (ev : Ev), s.Iterates ev → s.faulted = false → (s.beforeStep ev).stepGate ev = true →
    step s = .next t → t.faulted = true →
    t = State.consumeOp { s.beforeStep ev with
      prevKey := ev.keysIn, boot := .running, curInstr := t.curInstr,
      faulted := true, faultCause := t.faultCause, faultPc := s.pc, faultWord := t.faultWord, faultAddr := t.faultAddr }

/-- 10_state.md R23: which instructions may change VF: those that define a flag, and those that have VF as a destination. -/
def Obligations.OnlyFlagInstructionsWriteVf : Prop :=
  ∀ (i : Instr) (s t : State), exec i s = .next t → t.reg vf ≠ s.reg vf →
    match i with
    | .addReg _ _ | .subReg _ _ | .shr _ _ | .subnReg _ _ | .shl _ _ | .drw _ _ _ => True
    | .ldImm x _ | .addImm x _ | .ldReg x _ | .orReg x _ | .andReg x _ | .xorReg x _ | .rnd x _ | .ldVxDt x | .loadRegs x => x = vf
    | _ => False

/-- 10_state.md R27, R28, R32, R33 to R37, 20_memory.md R58: each element of the state has its writers among the instructions;
R38, R97 and 00_scope.md R17: the events are the unhandled words', and cur_instr is the executor's. The fields `diag` (log 8), `params`
(log 4), `boot` (log 9), `host` (log 1) and `draws` (log 3) are the model's own, and so are the clauses on them. -/
def Obligations.EachElementHasItsWriters : Prop :=
  ∀ (i : Instr) (s t : State), exec i s = .next t →
    (t.i ≠ s.i → (∃ a, i = .ldI a) ∨ (∃ x, i = .addI x) ∨ (∃ x, i = .ldF x)) ∧
    (t.stack ≠ s.stack → ∃ a, i = .call a) ∧
    (t.sp ≠ s.sp → (∃ a, i = .call a) ∨ (∃ nn, i = .ret nn)) ∧
    (t.mem ≠ s.mem → (∃ x, i = .ldB x) ∨ (∃ x, i = .storeRegs x)) ∧
    (t.fb ≠ s.fb → (∃ nn, i = .cls nn) ∨ (∃ x y n, i = .drw x y n)) ∧
    (t.dt ≠ s.dt → ∃ x, i = .ldDtVx x) ∧ (t.st ≠ s.st → ∃ x, i = .ldStVx x) ∧
    (t.awaiting ≠ s.awaiting ∨ t.waitReg ≠ s.waitReg → ∃ x, i = .ldVxK x) ∧
    (t.diag ≠ s.diag → ∃ w, i = .unhandled w) ∧
    t.key = s.key ∧ t.prevKey = s.prevKey ∧ t.paused = s.paused ∧ t.curInstr = s.curInstr ∧
    t.params = s.params ∧ t.boot = s.boot ∧ t.host = s.host ∧ t.draws = s.draws

/-- 10_state.md R32, R34, R35: no instruction reads PrevKey or ST, and none but Dxyn reads the display: replacing the element before the
instruction replaces it after the instruction and changes nothing else. -/
def Obligations.HiddenElementsAreNotRead : Prop :=
  ∀ (i : Instr) (s : State) (pk : BitVec 16) (v : Word) (f : Display),
    exec i { s with prevKey := pk } = mapNext (fun t => { t with prevKey := pk }) (exec i s) ∧
    ((∀ x, i ≠ .ldStVx x) → exec i { s with st := v } = mapNext (fun t => { t with st := v }) (exec i s)) ∧
    (∀ x, i = .ldStVx x → exec i { s with st := v } = exec i s) ∧
    ((∀ x y n, i ≠ .drw x y n) → (∀ nn, i ≠ .cls nn) →
      exec i { s with fb := f } = mapNext (fun t => { t with fb := f }) (exec i s)) ∧
    (∀ nn, i = .cls nn → exec i { s with fb := f } = exec i s)

/-- 70_reset_and_hazards.md R255, R256, R257: a step is refused only for an iteration after a failed load or before a Load, or for a Load
outside its window. The refusals are the model's own (log 9). -/
def Obligations.StepIsRefusedOnlyAtTheHostsFault : Prop :=
  ∀ s : State, (∃ t, step s = .next t) ∨
    (∃ ev e, s.pendingOp = .iterate ev ∧ s.boot = .failed e ∧ step s = .refused (.iterationAfterFailedLoad e)) ∨
    (∃ ev, s.pendingOp = .iterate ev ∧ s.boot = .fresh ∧ step s = .refused .iterationBeforeLoad) ∨
    (∃ file, s.pendingOp = .load file ∧ s.boot ≠ .fresh ∧ step s = .refused .loadOutsideWindow)

/-- 20_memory.md R55, 10_state.md R31: under FONT_WRITE_POLICY = FAULT no step but a Reset changes the font region. -/
def Obligations.FontRegionIsReadOnly : Prop :=
  ∀ (s t : State) (a : Nat), s.mem.wf = true → s.params.fontWritePolicy = .fault → s.pendingOp ≠ .reset → step s = .next t →
    a < 80 → t.mem.read a = s.mem.read a

/-! ## Invariants -/

/-- 10_state.md R42: the invariants hold after creation and after Reset, for every setting of the parameters. -/
def Obligations.ResetMeetsTheInvariant : Prop :=
  State.reset.Inv ∧ State.reset.MemOk ∧ State.reset.RecordOk ∧
  (∀ p ops, (State.created p ops).Inv ∧ (State.created p ops).MemOk ∧ (State.created p ops).RecordOk) ∧
  (∀ s : State, s.doReset.Inv ∧ s.doReset.MemOk ∧ s.doReset.RecordOk)

/-- 10_state.md R42: every step keeps the six invariants, on memory in its canonical form. -/
def Obligations.StepKeepsTheInvariant : Prop :=
  ∀ s t : State, s.MemOk → s.Inv → step s = .next t → t.Inv

/-- Every step keeps the canonical form of memory and its range (log 6), and the agreement of the fault record (60_exceptions.md R222). -/
def Obligations.StepKeepsMemoryAndRecord : Prop :=
  ∀ s t : State, step s = .next t → (s.MemOk → t.MemOk) ∧ (s.RecordOk → t.RecordOk)

/-- 10_state.md R42: the six invariants hold in every state of every run, for every setting of the parameters and every list of moves. -/
def Obligations.ReachableStatesMeetTheInvariant : Prop :=
  ∀ s : State, Reachable s → s.Inv

/-! ## Endless runs -/

/-- 40_execution_cycle.md R111, 70_reset_and_hazards.md R265, 45_timer_key.md R201: every sequence of input records, so every sequence of
strobes, has a run from every state in which an iteration may run; under the fairness premise for `exec_due` a running machine that is
not paused reaches an iteration in which the executor runs at the same PC; and under the fairness premise for `timer_due` the timers of
a machine that goes on waiting for a key reach 0. A run gives the machine one record for each step (log 1). -/
def Obligations.EveryStrobeSequenceRunsAndFairOnesProgress : Prop :=
  (∀ (evs : Nat → Ev) (s : State), s.boot.mayIterate = true → ∃ σ, σ 0 = s ∧ Run evs σ) ∧
  (∀ (evs : Nat → Ev) (σ : Nat → State) (n : Nat), Run evs σ → FairExec evs → NoToggleFrom evs n →
    (σ n).faulted = false → (σ n).paused = false → (σ n).awaiting = false →
    ∃ m, n ≤ m ∧ (σ m).faulted = false ∧ ((σ m).beforeStep (evs m)).stepGate (evs m) = true ∧ (σ m).pc = (σ n).pc) ∧
  (∀ (evs : Nat → Ev) (σ : Nat → State) (n : Nat), Run evs σ → FairTimer evs → NoToggleFrom evs n →
    (σ n).faulted = false → (σ n).paused = false → (σ n).awaiting = true →
    (∀ m k, n ≤ m → k < 16 → ¬ (σ m).Edge (evs m) k) →
    ∃ m, n ≤ m ∧ (σ m).dt = 0 ∧ (σ m).st = 0 ∧ (σ m).awaiting = true ∧ (σ m).pc = (σ n).pc)
end

