-- ==== Sys2Proof/Laws/State.lean ====
section
/-! SUPPORT. The small lemmas of the state and its updates: what each update does to the fields it writes, and that it leaves the rest
(one equation per update, `…_eq`, shows the whole record). -/

namespace Sys2Proof.Machine

/-! ## Registers -/

theorem State.setReg_eq (s : State) (x : Reg) (b : Byte) : s.setReg x b = { s with v := s.v.set x.toNat b } := rfl

@[simp] theorem State.reg_setReg_self (s : State) (x : Reg) (b : Byte) : (s.setReg x b).reg x = b := by
  simp [State.reg, State.setReg]

theorem State.reg_setReg (s : State) (x y : Reg) (b : Byte) :
    (s.setReg x b).reg y = if y = x then b else s.reg y := by
  by_cases h : y = x
  · subst h; simp
  · have : x.toNat ≠ y.toNat := fun e => h (BitVec.eq_of_toNat_eq e.symm)
    simp [State.reg, State.setReg, h, Vector.getElem_set_ne, this]

theorem State.reg_setReg_ne (s : State) {x y : Reg} (b : Byte) (h : y ≠ x) : (s.setReg x b).reg y = s.reg y := by
  rw [State.reg_setReg, if_neg h]

/-- Two register files that agree register by register are equal. -/
theorem State.v_ext {s t : State} (h : ∀ r, s.reg r = t.reg r) : s.v = t.v := by
  apply Vector.ext
  intro k hk
  have := h (BitVec.ofNat 4 k)
  simpa [State.reg, Nat.mod_eq_of_lt hk] using this

section setReg
variable (s : State) (x : Reg) (b : Byte)
@[simp] theorem State.setReg_i : (s.setReg x b).i = s.i := rfl
@[simp] theorem State.setReg_pc : (s.setReg x b).pc = s.pc := rfl
@[simp] theorem State.setReg_stack : (s.setReg x b).stack = s.stack := rfl
@[simp] theorem State.setReg_sp : (s.setReg x b).sp = s.sp := rfl
@[simp] theorem State.setReg_mem : (s.setReg x b).mem = s.mem := rfl
@[simp] theorem State.setReg_fb : (s.setReg x b).fb = s.fb := rfl
@[simp] theorem State.setReg_dt : (s.setReg x b).dt = s.dt := rfl
@[simp] theorem State.setReg_st : (s.setReg x b).st = s.st := rfl
@[simp] theorem State.setReg_key : (s.setReg x b).key = s.key := rfl
@[simp] theorem State.setReg_prevKey : (s.setReg x b).prevKey = s.prevKey := rfl
@[simp] theorem State.setReg_paused : (s.setReg x b).paused = s.paused := rfl
@[simp] theorem State.setReg_awaiting : (s.setReg x b).awaiting = s.awaiting := rfl
@[simp] theorem State.setReg_waitReg : (s.setReg x b).waitReg = s.waitReg := rfl
@[simp] theorem State.setReg_curInstr : (s.setReg x b).curInstr = s.curInstr := rfl
@[simp] theorem State.setReg_faulted : (s.setReg x b).faulted = s.faulted := rfl
@[simp] theorem State.setReg_params : (s.setReg x b).params = s.params := rfl
@[simp] theorem State.setReg_boot : (s.setReg x b).boot = s.boot := rfl
@[simp] theorem State.setReg_host : (s.setReg x b).host = s.host := rfl
@[simp] theorem State.setReg_draws : (s.setReg x b).draws = s.draws := rfl
@[simp] theorem State.setReg_diag : (s.setReg x b).diag = s.diag := rfl
@[simp] theorem State.setReg_faultCause : (s.setReg x b).faultCause = s.faultCause := rfl
@[simp] theorem State.setReg_faultPc : (s.setReg x b).faultPc = s.faultPc := rfl
@[simp] theorem State.setReg_faultWord : (s.setReg x b).faultWord = s.faultWord := rfl
@[simp] theorem State.setReg_faultAddr : (s.setReg x b).faultAddr = s.faultAddr := rfl
end setReg

/-! ## The program counter -/

theorem State.advance_eq (s : State) : s.advance = { s with pc := s.pc + 2 } := rfl
theorem State.skipIf_eq (s : State) (c : Bool) :
    s.skipIf c = { s with pc := if c then s.pc + 4 else s.pc + 2 } := rfl

section advance
variable (s : State)
@[simp] theorem State.advance_v : s.advance.v = s.v := rfl
@[simp] theorem State.advance_reg (x : Reg) : s.advance.reg x = s.reg x := rfl
@[simp] theorem State.advance_i : s.advance.i = s.i := rfl
@[simp] theorem State.advance_pc : s.advance.pc = s.pc + 2 := rfl
@[simp] theorem State.advance_stack : s.advance.stack = s.stack := rfl
@[simp] theorem State.advance_sp : s.advance.sp = s.sp := rfl
@[simp] theorem State.advance_mem : s.advance.mem = s.mem := rfl
@[simp] theorem State.advance_fb : s.advance.fb = s.fb := rfl
@[simp] theorem State.advance_dt : s.advance.dt = s.dt := rfl
@[simp] theorem State.advance_st : s.advance.st = s.st := rfl
@[simp] theorem State.advance_key : s.advance.key = s.key := rfl
@[simp] theorem State.advance_prevKey : s.advance.prevKey = s.prevKey := rfl
@[simp] theorem State.advance_paused : s.advance.paused = s.paused := rfl
@[simp] theorem State.advance_awaiting : s.advance.awaiting = s.awaiting := rfl
@[simp] theorem State.advance_waitReg : s.advance.waitReg = s.waitReg := rfl
@[simp] theorem State.advance_curInstr : s.advance.curInstr = s.curInstr := rfl
@[simp] theorem State.advance_faulted : s.advance.faulted = s.faulted := rfl
@[simp] theorem State.advance_params : s.advance.params = s.params := rfl
@[simp] theorem State.advance_boot : s.advance.boot = s.boot := rfl
@[simp] theorem State.advance_host : s.advance.host = s.host := rfl
@[simp] theorem State.advance_draws : s.advance.draws = s.draws := rfl
@[simp] theorem State.advance_diag : s.advance.diag = s.diag := rfl
@[simp] theorem State.advance_faultCause : s.advance.faultCause = s.faultCause := rfl
@[simp] theorem State.advance_faultPc : s.advance.faultPc = s.faultPc := rfl
@[simp] theorem State.advance_faultWord : s.advance.faultWord = s.faultWord := rfl
@[simp] theorem State.advance_faultAddr : s.advance.faultAddr = s.faultAddr := rfl
end advance

/-! ## Fault entry -/

theorem State.raise_eq (s : State) (c : FaultCause) (a : Nat) :
    s.raise c a = { s with
      faulted := true, faultCause := c, faultPc := s.pc, faultWord := s.curInstr, faultAddr := BitVec.ofNat 17 a } := rfl

/-! ## The host's moves -/

/-- Taking a move off the list changes the list and the counter of free draws alone. -/
theorem State.consumeOp_eq (s : State) :
    s.consumeOp = { s with host := s.consumeOp.host, draws := s.consumeOp.draws } := by
  unfold State.consumeOp; cases s.host <;> rfl

section consumeOp
variable (s : State)
@[simp] theorem State.consumeOp_v : s.consumeOp.v = s.v := by rw [State.consumeOp_eq]
@[simp] theorem State.consumeOp_reg (x : Reg) : s.consumeOp.reg x = s.reg x := by simp [State.reg]
@[simp] theorem State.consumeOp_i : s.consumeOp.i = s.i := by rw [State.consumeOp_eq]
@[simp] theorem State.consumeOp_pc : s.consumeOp.pc = s.pc := by rw [State.consumeOp_eq]
@[simp] theorem State.consumeOp_stack : s.consumeOp.stack = s.stack := by rw [State.consumeOp_eq]
@[simp] theorem State.consumeOp_sp : s.consumeOp.sp = s.sp := by rw [State.consumeOp_eq]
@[simp] theorem State.consumeOp_mem : s.consumeOp.mem = s.mem := by rw [State.consumeOp_eq]
@[simp] theorem State.consumeOp_fb : s.consumeOp.fb = s.fb := by rw [State.consumeOp_eq]
@[simp] theorem State.consumeOp_dt : s.consumeOp.dt = s.dt := by rw [State.consumeOp_eq]
@[simp] theorem State.consumeOp_st : s.consumeOp.st = s.st := by rw [State.consumeOp_eq]
@[simp] theorem State.consumeOp_key : s.consumeOp.key = s.key := by rw [State.consumeOp_eq]
@[simp] theorem State.consumeOp_prevKey : s.consumeOp.prevKey = s.prevKey := by rw [State.consumeOp_eq]
@[simp] theorem State.consumeOp_paused : s.consumeOp.paused = s.paused := by rw [State.consumeOp_eq]
@[simp] theorem State.consumeOp_awaiting : s.consumeOp.awaiting = s.awaiting := by rw [State.consumeOp_eq]
@[simp] theorem State.consumeOp_waitReg : s.consumeOp.waitReg = s.waitReg := by rw [State.consumeOp_eq]
@[simp] theorem State.consumeOp_curInstr : s.consumeOp.curInstr = s.curInstr := by rw [State.consumeOp_eq]
@[simp] theorem State.consumeOp_faulted : s.consumeOp.faulted = s.faulted := by rw [State.consumeOp_eq]
@[simp] theorem State.consumeOp_faultCause : s.consumeOp.faultCause = s.faultCause := by rw [State.consumeOp_eq]
@[simp] theorem State.consumeOp_faultPc : s.consumeOp.faultPc = s.faultPc := by rw [State.consumeOp_eq]
@[simp] theorem State.consumeOp_faultWord : s.consumeOp.faultWord = s.faultWord := by rw [State.consumeOp_eq]
@[simp] theorem State.consumeOp_faultAddr : s.consumeOp.faultAddr = s.faultAddr := by rw [State.consumeOp_eq]
@[simp] theorem State.consumeOp_params : s.consumeOp.params = s.params := by rw [State.consumeOp_eq]
@[simp] theorem State.consumeOp_boot : s.consumeOp.boot = s.boot := by rw [State.consumeOp_eq]
@[simp] theorem State.consumeOp_diag : s.consumeOp.diag = s.diag := by rw [State.consumeOp_eq]
end consumeOp

end Sys2Proof.Machine
end

