-- ==== Sys2Proof/Laws/Controller.lean ====
section
/-! SUPPORT. What the operations of the cycle controller do, case by case: outcomes, raising, press edges, the iteration, the step. -/

namespace Sys2Proof.Machine

/-! ## Outcomes -/

@[simp] theorem mapNext_next (f : State → State) (s : State) : mapNext f (.next s) = .next (f s) := rfl

theorem mapNext_mapNext (f g : State → State) (o : Host.Outcome State Fault Refusal) :
    mapNext f (mapNext g o) = mapNext (fun s => f (g s)) o := by cases o <;> rfl

theorem State.orRaise_none (s effect : State) : s.orRaise none effect = effect := rfl

theorem State.orRaise_some (s effect : State) (c : FaultCause) (a : Nat) : s.orRaise (some (c, a)) effect = s.raise c a := rfl

/-! ## Registers and keys -/

theorem State.reg_congr {s t : State} (h : s.v = t.v) (r : Reg) : s.reg r = t.reg r := by unfold State.reg; rw [h]

theorem State.pressEdges_nil {s : State} (h : ∀ k, k < 16 → ¬ (s.key.getLsbD k = true ∧ s.prevKey.getLsbD k = false)) :
    s.pressEdges = [] := by
  unfold State.pressEdges
  rw [List.filter_eq_nil_iff]
  intro k _
  have := h k.val k.isLt
  simpa using this

/-- The press edges are listed from the lowest key on. -/
theorem State.pressEdges_cons {s : State} {k : Nat} (hk : k < 16) (h : s.key.getLsbD k = true ∧ s.prevKey.getLsbD k = false)
    (hj : ∀ j, j < k → ¬ (s.key.getLsbD j = true ∧ s.prevKey.getLsbD j = false)) : ∃ l, s.pressEdges = ⟨k, hk⟩ :: l := by
  unfold State.pressEdges
  have e : (List.finRange 16).find? (fun k => s.key.getLsbD k.val && !s.prevKey.getLsbD k.val) = some ⟨k, hk⟩ := by
    rw [List.find?_eq_some_iff_getElem]
    refine ⟨by simp [h.1, h.2], k, by simpa using hk, by simp, ?_⟩
    intro j hjk
    have := hj j hjk
    cases h1 : s.key.getLsbD j <;> cases h2 : s.prevKey.getLsbD j <;> simp_all
  rw [← List.head?_filter] at e
  cases hl : (List.finRange 16).filter (fun k => s.key.getLsbD k.val && !s.prevKey.getLsbD k.val) with
  | nil => rw [hl] at e; cases e
  | cons a l => rw [hl] at e; cases e; exact ⟨l, rfl⟩

/-! ## The executor and the iteration -/

theorem State.afterStep_eq (s : State) (ev : Ev) :
    s.afterStep ev =
      { s with
        dt := if s.timerGate ev = true then countDown s.dt else s.dt, st := if s.timerGate ev = true then countDown s.st else s.st,
        prevKey := s.key, boot := .running } := by
  unfold State.afterStep State.timerPhase
  split <;> rfl

theorem executorStep_fetch {s : State} (h : s.pc.toNat ≤ 0x0FFE) :
    executorStep s = exec (decode s.params.zeroGroupDecode s.fetchWord) { s with curInstr := s.fetchWord } := by
  unfold executorStep State.fetchFault
  rw [if_neg (by omega)]

theorem executorStep_above {s : State} (h : s.pc.toNat > 0x0FFE) :
    executorStep s = .next (s.enterFaulted .fetchRange s.pc 0x0000 (if s.pc.toNat > 0x0FFF then s.pc.toNat else 0x1000)) := by
  unfold executorStep State.fetchFault
  rw [if_pos h]

theorem iterate_faulted {s : State} {ev : Ev} (h : s.faulted = true) : iterate ev s = .next (s.sampleKeys ev).endIteration := if_pos h

theorem iterate_executes {s : State} {ev : Ev} (h : s.faulted = false) (hg : (s.beforeStep ev).stepGate ev = true) :
    iterate ev s = mapNext (·.afterStep ev) (executorStep (s.beforeStep ev)) := by
  unfold iterate
  rw [if_neg (by rw [h]; exact Bool.false_ne_true), if_pos hg]

theorem iterate_skips {s : State} {ev : Ev} (h : s.faulted = false) (hg : (s.beforeStep ev).stepGate ev = false) :
    iterate ev s = .next ((s.beforeStep ev).afterStep ev) := by
  unfold iterate
  rw [if_neg (by rw [h]; exact Bool.false_ne_true), if_neg (by rw [hg]; exact Bool.false_ne_true)]

theorem State.doLoad_ok (s : State) {bytes : List Byte} (h : bytes.length ≤ Config.maxRom) :
    s.doLoad (some bytes) = { s with mem := s.mem.writeBytes Config.progBase bytes, boot := .loaded } := if_neg (by omega)

theorem State.doLoad_tooLarge (s : State) {bytes : List Byte} (h : bytes.length > Config.maxRom) :
    s.doLoad (some bytes) = { s with boot := .failed .tooLarge } := if_pos h

theorem step_of_iterate {s : State} {ev : Ev} (h : s.pendingOp = .iterate ev) (hb : s.boot.mayIterate = true) :
    step s = mapNext State.consumeOp (iterate ev s) := by
  unfold step runOp
  rw [h]
  cases e : s.boot with
  | loaded | running => rfl
  | fresh | failed => rw [e] at hb; cases hb

end Sys2Proof.Machine
end

