-- ==== Sys2Proof/Laws/Decode.lean ====
section
/-! SUPPORT. Fields and words: the fields of a built word, and a word rebuilt from its fields (30_encoding.md R71). -/

namespace Sys2Proof

/-- A concatenation as a number. -/
theorem toNat_append_add {m n : Nat} (a : BitVec m) (b : BitVec n) : (a ++ b).toNat = a.toNat * 2 ^ n + b.toNat := by
  rw [BitVec.toNat_append, ← Nat.shiftLeft_add_eq_or_of_lt b.isLt, Nat.shiftLeft_eq]

theorem toNat_wordXYN (op x y n : Nibble) :
    (wordXYN op x y n).toNat = op.toNat * 4096 + x.toNat * 256 + y.toNat * 16 + n.toNat := by
  rw [wordXYN, toNat_append_add, toNat_append_add, toNat_append_add]; omega

theorem toNat_wordXKK (op x : Nibble) (kk : Byte) : (wordXKK op x kk).toNat = op.toNat * 4096 + x.toNat * 256 + kk.toNat := by
  rw [wordXKK, toNat_append_add, toNat_append_add]; omega

theorem toNat_wordAddr (op : Nibble) (a : Addr) : (wordAddr op a).toNat = op.toNat * 4096 + a.toNat := by
  rw [wordAddr, toNat_append_add]; omega

theorem toNat_wordZero (nn : Byte) (n : Nibble) : (wordZero nn n).toNat = nn.toNat * 16 + n.toNat := by
  rw [wordZero, toNat_append_add, toNat_append_add]; simp

theorem toNat_wordOfBytes (hi lo : Byte) : (wordOfBytes hi lo).toNat = hi.toNat * 256 + lo.toNat := by
  rw [wordOfBytes, toNat_append_add]; omega

section fields
variable (w : Word)
theorem toNat_opField : (opField w).toNat = w.toNat / 4096 := by
  have := w.isLt
  simp only [opField, BitVec.extractLsb'_toNat, Nat.shiftRight_eq_div_pow]; omega
theorem toNat_xField : (xField w).toNat = w.toNat / 256 % 16 := by
  simp only [xField, BitVec.extractLsb'_toNat, Nat.shiftRight_eq_div_pow]
theorem toNat_yField : (yField w).toNat = w.toNat / 16 % 16 := by
  simp only [yField, BitVec.extractLsb'_toNat, Nat.shiftRight_eq_div_pow]
theorem toNat_nField : (nField w).toNat = w.toNat % 16 := by
  simp only [nField, BitVec.extractLsb'_toNat, Nat.shiftRight_zero]
theorem toNat_addrField : (addrField w).toNat = w.toNat % 4096 := by
  simp only [addrField, BitVec.extractLsb'_toNat, Nat.shiftRight_zero]
theorem toNat_byteField : (byteField w).toNat = w.toNat % 256 := by
  simp only [byteField, BitVec.extractLsb'_toNat, Nat.shiftRight_zero]
theorem toNat_midField : (midField w).toNat = w.toNat / 16 % 256 := by
  simp only [midField, BitVec.extractLsb'_toNat, Nat.shiftRight_eq_div_pow]
end fields

section built
variable (op x y n : Nibble) (kk nn : Byte) (a : Addr)

@[simp] theorem opField_wordXYN : opField (wordXYN op x y n) = op := by
  apply BitVec.eq_of_toNat_eq; rw [toNat_opField, toNat_wordXYN]; omega
@[simp] theorem xField_wordXYN : xField (wordXYN op x y n) = x := by
  apply BitVec.eq_of_toNat_eq; rw [toNat_xField, toNat_wordXYN]; omega
@[simp] theorem yField_wordXYN : yField (wordXYN op x y n) = y := by
  apply BitVec.eq_of_toNat_eq; rw [toNat_yField, toNat_wordXYN]; omega
@[simp] theorem nField_wordXYN : nField (wordXYN op x y n) = n := by
  apply BitVec.eq_of_toNat_eq; rw [toNat_nField, toNat_wordXYN]; omega
@[simp] theorem opField_wordXKK : opField (wordXKK op x kk) = op := by
  apply BitVec.eq_of_toNat_eq; rw [toNat_opField, toNat_wordXKK]; omega
@[simp] theorem xField_wordXKK : xField (wordXKK op x kk) = x := by
  apply BitVec.eq_of_toNat_eq; rw [toNat_xField, toNat_wordXKK]; omega
@[simp] theorem byteField_wordXKK : byteField (wordXKK op x kk) = kk := by
  apply BitVec.eq_of_toNat_eq; rw [toNat_byteField, toNat_wordXKK]; omega
@[simp] theorem opField_wordAddr : opField (wordAddr op a) = op := by
  apply BitVec.eq_of_toNat_eq; rw [toNat_opField, toNat_wordAddr]; omega
@[simp] theorem addrField_wordAddr : addrField (wordAddr op a) = a := by
  apply BitVec.eq_of_toNat_eq; rw [toNat_addrField, toNat_wordAddr]; omega
@[simp] theorem opField_wordZero : opField (wordZero nn n) = 0#4 := by
  apply BitVec.eq_of_toNat_eq; rw [toNat_opField, toNat_wordZero]
  show _ = 0; omega
@[simp] theorem midField_wordZero : midField (wordZero nn n) = nn := by
  apply BitVec.eq_of_toNat_eq; rw [toNat_midField, toNat_wordZero]; omega
@[simp] theorem nField_wordZero : nField (wordZero nn n) = n := by
  apply BitVec.eq_of_toNat_eq; rw [toNat_nField, toNat_wordZero]; omega
end built

section rebuilt
variable (w : Word)
theorem wordXYN_fields : wordXYN (opField w) (xField w) (yField w) (nField w) = w := by
  apply BitVec.eq_of_toNat_eq
  rw [toNat_wordXYN, toNat_opField, toNat_xField, toNat_yField, toNat_nField]; omega
theorem wordXKK_fields : wordXKK (opField w) (xField w) (byteField w) = w := by
  apply BitVec.eq_of_toNat_eq
  rw [toNat_wordXKK, toNat_opField, toNat_xField, toNat_byteField]; omega
theorem wordAddr_fields : wordAddr (opField w) (addrField w) = w := by
  apply BitVec.eq_of_toNat_eq
  rw [toNat_wordAddr, toNat_opField, toNat_addrField]; omega
theorem wordZero_fields (h : opField w = 0#4) : wordZero (midField w) (nField w) = w := by
  have h := congrArg BitVec.toNat h
  have := w.isLt
  apply BitVec.eq_of_toNat_eq
  rw [toNat_opField] at h
  rw [toNat_wordZero, toNat_midField, toNat_nField]
  change _ = 0 at h; omega
end rebuilt

end Sys2Proof
end

