-- ==== Sys2Proof/Laws/Display.lean ====
section
/-! SUPPORT. Drawing as a set of points: what a sprite toggles, and when it collides (44_display.md R192). -/

namespace Sys2Proof.Machine

/-- A toggle flips its own pixel and no other. -/
theorem Display.pixel_toggle (fb : Display) (x x' : Fin 64) (y y' : Fin 32) :
    (fb.toggle x y).pixel x' y' = (fb.pixel x' y' ^^ decide ((x', y') = (x, y))) := by
  unfold Display.pixel Display.toggle
  rw [Vector.getElem_set]
  split
  · rename_i h
    have hy : y = y' := Fin.ext h
    subst hy
    simp only [BitVec.getLsbD_xor, BitVec.getLsbD_twoPow, Prod.mk.injEq, and_true]
    by_cases hx : x' = x
    · subst hx; simp
    · have : x.val ≠ x'.val := fun e => hx (Fin.ext e.symm)
      simp [hx, this]
  · rename_i h
    have : y' ≠ y := fun e => h (by rw [e])
    simp [this]

@[simp] theorem Display.pixel_clear (x : Fin 64) (y : Fin 32) : Display.clear.pixel x y = false := by
  simp [Display.pixel, Display.clear]

/-- Two displays that agree pixel by pixel are equal. -/
theorem Display.ext_pixel {a b : Display} (h : ∀ x y, a.pixel x y = b.pixel x y) : a = b := by
  apply Vector.ext
  intro k hk
  apply BitVec.eq_of_getLsbD_eq
  intro j hj
  exact h ⟨j, hj⟩ ⟨k, hk⟩

/-- A list of points plotted in order. -/
def Drawing.plotAll (d : Drawing) (ps : List (Fin 64 × Fin 32)) : Drawing := ps.foldl (fun d p => d.plot p.1 p.2) d

theorem Drawing.plotAll_append (d : Drawing) (ps qs : List (Fin 64 × Fin 32)) :
    d.plotAll (ps ++ qs) = (d.plotAll ps).plotAll qs := List.foldl_append

/-- Distinct points plotted: exactly they are toggled, and a collision is one of them that was set before. -/
theorem Drawing.plotAll_spec (ps : List (Fin 64 × Fin 32)) (hn : ps.Nodup) (d : Drawing) :
    (∀ x y, (d.plotAll ps).fb.pixel x y = (d.fb.pixel x y ^^ decide ((x, y) ∈ ps))) ∧
    (d.plotAll ps).collision = (d.collision || ps.any fun p => d.fb.pixel p.1 p.2) := by
  induction ps generalizing d with
  | nil => simp [Drawing.plotAll]
  | cons p ps ih =>
    obtain ⟨hp, hn⟩ := List.nodup_cons.mp hn
    obtain ⟨ih1, ih2⟩ := ih hn (d.plot p.1 p.2)
    have step : d.plotAll (p :: ps) = (d.plot p.1 p.2).plotAll ps := rfl
    refine ⟨fun x y => ?_, ?_⟩
    · rw [step, ih1]
      simp only [Drawing.plot, Display.pixel_toggle, List.mem_cons]
      by_cases hx : (x, y) = p
      · subst hx; simp [hp]
      · simp [hx]
    · rw [step, ih2]
      simp only [Drawing.plot, List.any_cons, Bool.or_assoc]
      congr 2
      rw [Bool.eq_iff_iff, List.any_eq_true, List.any_eq_true]
      refine exists_congr fun q => and_congr_right fun hq => ?_
      have : (q.1, q.2) ≠ (p.1, p.2) := fun e => hp (by rw [← show q = p from e]; exact hq)
      rw [Display.pixel_toggle, decide_eq_false this, Bool.xor_false]

/-- The points of one sprite row. -/
def rowPoints (x0 : Nat) (py : Fin 32) (row : Byte) : List (Fin 64 × Fin 32) :=
  ((List.range 8).filter fun c => row.getLsbD (7 - c)).map fun c => (Fin.ofNat 64 (x0 + c), py)

theorem Drawing.plotRow_eq (d : Drawing) (x0 : Nat) (py : Fin 32) (row : Byte) :
    d.plotRow x0 py row = d.plotAll (rowPoints x0 py row) := by
  simp only [Drawing.plotRow, Drawing.plotAll, rowPoints, List.foldl_map, List.foldl_filter]

theorem mem_rowPoints {x0 : Nat} {py : Fin 32} {row : Byte} {x : Fin 64} {y : Fin 32} :
    (x, y) ∈ rowPoints x0 py row ↔ y = py ∧ ∃ c, c < 8 ∧ row.getLsbD (7 - c) = true ∧ x = Fin.ofNat 64 (x0 + c) := by
  simp only [rowPoints, List.mem_map, List.mem_filter, List.mem_range, Prod.mk.injEq]
  constructor
  · rintro ⟨c, ⟨h1, h2⟩, h3, h4⟩; exact ⟨h4.symm, c, h1, h2, h3.symm⟩
  · rintro ⟨h4, c, h1, h2, h3⟩; exact ⟨c, ⟨h1, h2⟩, h3.symm, h4.symm⟩

theorem nodup_rowPoints (x0 : Nat) (py : Fin 32) (row : Byte) : (rowPoints x0 py row).Nodup := by
  refine List.Nodup.map_on ?_ (List.Nodup.filter _ List.nodup_range)
  intro a ha b hb h
  simp only [List.mem_filter, List.mem_range] at ha hb
  simp only [Prod.mk.injEq, Fin.ext_iff, Fin.val_ofNat, and_true] at h
  omega

/-- The points of the sprite rows from row `r` on. -/
def spritePoints (x0 y0 : Nat) : Nat → List Byte → List (Fin 64 × Fin 32)
  | _, [] => []
  | r, row :: rows => rowPoints x0 (Fin.ofNat 32 (y0 + r)) row ++ spritePoints x0 y0 (r + 1) rows

theorem Drawing.plotRows_eq (d : Drawing) (x0 y0 r : Nat) (rows : List Byte) :
    d.plotRows x0 y0 r rows = d.plotAll (spritePoints x0 y0 r rows) := by
  induction rows generalizing d r with
  | nil => rfl
  | cons row rows ih =>
    rw [Drawing.plotRows, ih, Drawing.plotRow_eq, spritePoints, Drawing.plotAll_append]

/-- A point of a sprite: a set bit 7 − c of row k, at column x0 + c mod 64 and row y0 + k mod 32. -/
theorem mem_spritePoints {x0 y0 r : Nat} {rows : List Byte} {x : Fin 64} {y : Fin 32} :
    (x, y) ∈ spritePoints x0 y0 r rows ↔
      ∃ k c, k < rows.length ∧ c < 8 ∧ (rows.getD k 0).getLsbD (7 - c) = true ∧
        x = Fin.ofNat 64 (x0 + c) ∧ y = Fin.ofNat 32 (y0 + r + k) := by
  induction rows generalizing r with
  | nil => simp [spritePoints]
  | cons row rows ih =>
    rw [spritePoints, List.mem_append, mem_rowPoints, ih]
    constructor
    · rintro (⟨hy, c, hc, hb, hx⟩ | ⟨k, c, hk, hc, hb, hx, hy⟩)
      · exact ⟨0, c, by simp, hc, by simpa using hb, hx, by simpa using hy⟩
      · exact ⟨k + 1, c, by simpa using hk, hc, by simpa using hb, hx, by rw [hy]; congr 1; omega⟩
    · rintro ⟨k, c, hk, hc, hb, hx, hy⟩
      cases k with
      | zero => exact .inl ⟨by simpa using hy, c, hc, by simpa using hb, hx⟩
      | succ k =>
        refine .inr ⟨k, c, by simpa using hk, hc, by simpa using hb, hx, ?_⟩
        rw [hy]; congr 1; omega

theorem nodup_spritePoints {x0 y0 r : Nat} {rows : List Byte} (h : r + rows.length ≤ 32) :
    (spritePoints x0 y0 r rows).Nodup := by
  induction rows generalizing r with
  | nil => exact List.nodup_nil
  | cons row rows ih =>
    simp only [List.length_cons] at h
    refine List.Nodup.append (nodup_rowPoints _ _ _) (ih (by omega)) ?_
    rintro ⟨x, y⟩ h1 h2
    obtain ⟨hy1, -⟩ := mem_rowPoints.mp h1
    obtain ⟨k, -, hk, -, -, -, hy2⟩ := mem_spritePoints.mp h2
    rw [hy1] at hy2
    simp only [Fin.ext_iff, Fin.val_ofNat] at hy2
    omega

/-- The points a sprite of DRW toggles. -/
def State.drawnPoints (s : State) (x y : Reg) (n : Nibble) : List (Fin 64 × Fin 32) :=
  spritePoints ((s.reg x).toNat % 64) ((s.reg y).toNat % 32) 0 (s.mem.readBytes (s.effAddr 0) n.toNat)

theorem State.mem_drawnPoints {s : State} {x y : Reg} {n : Nibble} {px : Fin 64} {py : Fin 32} :
    (px, py) ∈ s.drawnPoints x y n ↔
      ∃ r c, r < n.toNat ∧ c < 8 ∧ (s.mem.read (s.i.toNat + r)).getLsbD (7 - c) = true ∧
        px.val = ((s.reg x).toNat % 64 + c) % 64 ∧ py.val = ((s.reg y).toNat % 32 + r) % 32 := by
  unfold State.drawnPoints
  rw [mem_spritePoints]
  simp only [Memory.readBytes, List.length_map, List.length_range, State.effAddr, Nat.add_zero, Fin.ext_iff,
    Fin.val_ofNat]
  refine exists_congr fun k => exists_congr fun c => and_congr_right fun hk => and_congr_right fun hc => ?_
  rw [List.getD_eq_getElem _ _ (by simpa using hk)]
  simp

/-- What drawing does: exactly the sprite's points are toggled, and the collision is a point that was set. -/
theorem State.drawing_spec (s : State) (x y : Reg) (n : Nibble) :
    (∀ px py, (s.drawing x y n).fb.pixel px py = (s.fb.pixel px py ^^ decide ((px, py) ∈ s.drawnPoints x y n))) ∧
    (s.drawing x y n).collision = (s.drawnPoints x y n).any fun p => s.fb.pixel p.1 p.2 := by
  have hn : (s.drawnPoints x y n).Nodup := by
    refine nodup_spritePoints ?_
    have := n.isLt
    simp only [Memory.readBytes, List.length_map, List.length_range]; omega
  have := Drawing.plotAll_spec _ hn ⟨s.fb, false⟩
  rw [State.drawing, Drawing.plotRows_eq]
  refine ⟨this.1, ?_⟩
  exact this.2.trans (Bool.false_or _)

end Sys2Proof.Machine
end

