-- ==== Sys2Proof/Laws/Memory.lean ====
section
/-! SUPPORT. Memory: a read after a write, the canonical form and its keeping by every memory operation, and the address range. -/

namespace Sys2Proof.Machine

@[simp] theorem Memory.read_nil (a : Nat) : Memory.read [] a = Memory.unlisted a := rfl

theorem Memory.read_cons (k : Nat) (b : Byte) (m : Memory) (a : Nat) :
    Memory.read ((k, b) :: m) a = if a = k then b else Memory.read m a := rfl

/-- Below its first possible address a memory in canonical form reads as unlisted. -/
theorem Memory.read_below {lo : Nat} {m : Memory} (h : m.wfFrom lo = true) {a : Nat} (ha : a < lo) :
    m.read a = Memory.unlisted a := by
  induction m generalizing lo with
  | nil => rfl
  | cons c m ih =>
    obtain ⟨k, b⟩ := c
    simp only [Memory.wfFrom, Bool.and_eq_true, decide_eq_true_eq, bne_iff_ne] at h
    rw [Memory.read_cons, if_neg (by omega)]
    exact ih h.2 (by omega)

theorem Memory.wfFrom_mono {lo lo' : Nat} (hlo : lo' ≤ lo) {m : Memory} (h : m.wfFrom lo = true) : m.wfFrom lo' = true := by
  cases m with
  | nil => rfl
  | cons c m =>
    obtain ⟨k, b⟩ := c
    simp only [Memory.wfFrom, Bool.and_eq_true, decide_eq_true_eq, bne_iff_ne] at h ⊢
    exact ⟨⟨by omega, h.1.2⟩, h.2⟩

theorem Memory.wfFrom_cellBefore {lo a : Nat} {b : Byte} {m : Memory} (ha : lo ≤ a) (h : m.wfFrom (a + 1) = true) :
    (Memory.cellBefore a b m).wfFrom lo = true := by
  unfold Memory.cellBefore
  split
  · exact Memory.wfFrom_mono (by omega) h
  · simp [Memory.wfFrom, *]

theorem Memory.wfFrom_write {lo a : Nat} {b : Byte} {m : Memory} (h : m.wfFrom lo = true) (ha : lo ≤ a) :
    (m.write a b).wfFrom lo = true := by
  induction m generalizing lo with
  | nil => exact Memory.wfFrom_cellBefore ha rfl
  | cons c m ih =>
    obtain ⟨k, c⟩ := c
    simp only [Memory.wfFrom, Bool.and_eq_true, decide_eq_true_eq, bne_iff_ne] at h
    simp only [Memory.write]
    split
    · refine Memory.wfFrom_cellBefore ha ?_
      simp only [Memory.wfFrom, Bool.and_eq_true, decide_eq_true_eq, bne_iff_ne]
      exact ⟨⟨by omega, h.1.2⟩, h.2⟩
    · split
      · subst a; exact Memory.wfFrom_cellBefore ha h.2
      · simp only [Memory.wfFrom, Bool.and_eq_true, decide_eq_true_eq, bne_iff_ne]
        exact ⟨h.1, ih h.2 (by omega)⟩

/-- A write keeps the canonical form. -/
theorem Memory.wf_write {m : Memory} (h : m.wf = true) (a : Nat) (b : Byte) : (m.write a b).wf = true :=
  Memory.wfFrom_write h (Nat.zero_le a)

theorem Memory.read_cellBefore {a : Nat} {b : Byte} {m : Memory} (h : m.wfFrom (a + 1) = true) (x : Nat) :
    (Memory.cellBefore a b m).read x = if x = a then b else m.read x := by
  unfold Memory.cellBefore
  split
  · split
    · subst x; rw [Memory.read_below h (by omega)]; exact (‹b = _›).symm
    · rfl
  · rfl

theorem Memory.read_write_from {lo : Nat} {m : Memory} (h : m.wfFrom lo = true) (a : Nat) (b : Byte) (x : Nat) :
    (m.write a b).read x = if x = a then b else m.read x := by
  induction m generalizing lo with
  | nil => exact Memory.read_cellBefore rfl x
  | cons c m ih =>
    obtain ⟨k, c⟩ := c
    have h' := h
    simp only [Memory.wfFrom, Bool.and_eq_true, decide_eq_true_eq, bne_iff_ne] at h
    simp only [Memory.write]
    split
    · refine Memory.read_cellBefore ?_ x
      simp only [Memory.wfFrom, Bool.and_eq_true, decide_eq_true_eq, bne_iff_ne]
      exact ⟨⟨by omega, h.1.2⟩, h.2⟩
    · split
      · subst a
        rw [Memory.read_cellBefore h.2, Memory.read_cons]
        split <;> rfl
      · rw [Memory.read_cons, Memory.read_cons, ih h.2]
        split
        · rw [if_neg (by omega)]
        · rfl

/-- A read after a write: the written byte at its address, the old byte elsewhere (20_memory.md R59). -/
theorem Memory.read_write {m : Memory} (h : m.wf = true) (a : Nat) (b : Byte) (x : Nat) :
    (m.write a b).read x = if x = a then b else m.read x :=
  Memory.read_write_from h a b x

/-- Writing a block of bytes keeps the canonical form. -/
theorem Memory.wf_writeBytes {m : Memory} (h : m.wf = true) (a : Nat) (bs : List Byte) : (m.writeBytes a bs).wf = true := by
  induction bs generalizing m a with
  | nil => exact h
  | cons b bs ih => exact ih (Memory.wf_write h a b) (a + 1)

/-- A read after a block is written: the block's byte inside it, the old byte outside it. -/
theorem Memory.read_writeBytes {m : Memory} (h : m.wf = true) (a : Nat) (bs : List Byte) (x : Nat) :
    (m.writeBytes a bs).read x = if a ≤ x ∧ x < a + bs.length then bs.getD (x - a) 0 else m.read x := by
  induction bs generalizing m a with
  | nil => simp only [Memory.writeBytes, List.length_nil]; rw [if_neg (by omega)]
  | cons b bs ih =>
    simp only [Memory.writeBytes]
    rw [ih (Memory.wf_write h a b), Memory.read_write h, List.length_cons]
    by_cases hx : x = a
    · subst hx
      rw [if_neg (by omega), if_pos rfl, if_pos (by omega)]; simp
    · by_cases hin : a + 1 ≤ x ∧ x < a + 1 + bs.length
      · rw [if_pos hin, if_pos (by omega)]
        obtain ⟨d, hd⟩ : ∃ d, x - a = d + 1 := ⟨x - a - 1, by omega⟩
        have hd' : x - (a + 1) = d := by omega
        rw [hd, hd', List.getD_cons_succ]
      · rw [if_neg hin, if_neg hx, if_neg (by omega)]

/-- Memory after reset is in canonical form, whatever the Font Table. -/
theorem Memory.wf_afterReset (g : Vector Byte 80) : (Memory.afterReset g).wf = true :=
  Memory.wf_writeBytes rfl _ _

/-- Memory after reset reads as 10_state.md R41 says. -/
theorem Memory.read_afterReset (g : Vector Byte 80) (a : Nat) :
    (Memory.afterReset g).read a = if h : a < 80 then g[a] else 0 := by
  unfold Memory.afterReset
  rw [Memory.read_writeBytes rfl]
  simp only [Config.fontBase, Nat.zero_le, true_and, Nat.zero_add, Nat.sub_zero, Vector.length_toList, Memory.read_nil]
  by_cases h : a < 80
  · simp [h, List.getD]
  · simp [h, Memory.unlisted, Config.fontSize]

/-! ## The address range -/

theorem Memory.inRange_cellBefore {a : Nat} {b : Byte} {m : Memory} (ha : a < 4096) (h : m.inRange = true) :
    (Memory.cellBefore a b m).inRange = true := by
  unfold Memory.cellBefore
  split
  · exact h
  · simp only [Memory.inRange, Config.memSize, List.all_cons, Bool.and_eq_true] at h ⊢
    exact ⟨decide_eq_true ha, h⟩

theorem Memory.inRange_write {a : Nat} {b : Byte} {m : Memory} (ha : a < 4096) (h : m.inRange = true) :
    (m.write a b).inRange = true := by
  induction m with
  | nil => exact Memory.inRange_cellBefore ha h
  | cons c m ih =>
    obtain ⟨k, c⟩ := c
    have h2 := h
    simp only [Memory.inRange, Config.memSize, List.all_cons, Bool.and_eq_true] at h2
    simp only [Memory.write]
    split
    · exact Memory.inRange_cellBefore ha h
    · split
      · exact Memory.inRange_cellBefore ha h2.2
      · have := ih h2.2
        simp only [Memory.inRange, Config.memSize, List.all_cons, Bool.and_eq_true] at this ⊢
        exact ⟨h2.1, this⟩

theorem Memory.inRange_writeBytes {a : Nat} {bs : List Byte} {m : Memory} (ha : a + bs.length ≤ 4096) (h : m.inRange = true) :
    (m.writeBytes a bs).inRange = true := by
  induction bs generalizing m a with
  | nil => exact h
  | cons b bs ih =>
    simp only [List.length_cons] at ha
    exact ih (by omega) (Memory.inRange_write (by omega) h)

theorem Memory.inRange_afterReset (g : Vector Byte 80) : (Memory.afterReset g).inRange = true :=
  Memory.inRange_writeBytes (by simp [Config.fontBase]) rfl

end Sys2Proof.Machine
end

