-- ==== Sys2Proof/Laws/Operands.lean ====
section
/-! SUPPORT. What the checks, the stack operations, the flag writes and the register blocks do, said once. -/

namespace Sys2Proof.Machine

/-! ## Checks (20_memory.md R55 to R57) -/

theorem firstFailing_append (f : Nat → Option FaultCause) (l m : List Nat) :
    firstFailing f (l ++ m) = (match firstFailing f l with | some r => some r | none => firstFailing f m) := by
  induction l with
  | nil => rfl
  | cons a l ih =>
    simp only [List.cons_append, firstFailing]
    cases f a with
    | some c => rfl
    | none => exact ih

theorem State.effAddrs_succ (s : State) (n : Nat) : s.effAddrs (n + 1) = s.effAddrs n ++ [s.i.toNat + n] := by
  simp [State.effAddrs, State.effAddr, List.range_succ]

/-- When an instruction that reads `n` bytes at I faults, and on which address: the first one above 0xFFF. -/
theorem State.readFault_eq (s : State) (n : Nat) :
    s.readFault n = if n = 0 ∨ s.i.toNat + n ≤ 0x1000 then none else some (.dataRange, max s.i.toNat 0x1000) := by
  induction n with
  | zero => rfl
  | succ n ih =>
    unfold State.readFault at ih ⊢
    rw [State.effAddrs_succ, firstFailing_append, ih]
    simp only [firstFailing, checkRead]
    by_cases h : n = 0 ∨ s.i.toNat + n ≤ 0x1000
    · rw [if_pos h]
      by_cases h2 : s.i.toNat + n > 0xFFF
      · rw [if_pos h2, if_neg (by omega)]
        simp only [Option.some.injEq, Prod.mk.injEq, true_and]; omega
      · rw [if_neg h2, if_pos (by omega)]
    · rw [if_neg h]
      show some _ = _
      rw [if_neg (by omega)]

/-- When an instruction that writes `n` bytes at I (n ≥ 1) faults, why, and on which address. -/
theorem State.writeFault_eq (s : State) {n : Nat} (hn : 0 < n) :
    s.writeFault n =
      if s.params.fontWritePolicy = .fault ∧ s.i.toNat ≤ 0x04F then some (.fontWrite, s.i.toNat)
      else if s.i.toNat + n ≤ 0x1000 then none
      else some (.dataRange, max s.i.toNat 0x1000) := by
  obtain ⟨n, rfl⟩ : ∃ k, n = k + 1 := ⟨n - 1, by omega⟩
  clear hn
  induction n with
  | zero =>
    simp only [State.writeFault, State.effAddrs, State.effAddr, List.range_succ, List.range_zero, List.nil_append,
      List.map_cons, List.map_nil, Nat.add_zero, Nat.zero_add, firstFailing, checkWrite]
    by_cases h1 : s.i.toNat > 0xFFF
    · rw [if_pos h1, if_neg (by omega), if_neg (by omega)]
      simp only [Option.some.injEq, Prod.mk.injEq, true_and]; omega
    · rw [if_neg h1]
      by_cases h2 : s.params.fontWritePolicy = .fault ∧ s.i.toNat ≤ 0x04F
      · rw [if_pos h2, if_pos h2]
      · rw [if_neg h2, if_neg h2, if_pos (by omega)]
  | succ n ih =>
    unfold State.writeFault at ih ⊢
    rw [State.effAddrs_succ, firstFailing_append, ih]
    by_cases h2 : s.params.fontWritePolicy = .fault ∧ s.i.toNat ≤ 0x04F
    · rw [if_pos h2, if_pos h2]
    · rw [if_neg h2, if_neg h2]
      by_cases h3 : s.i.toNat + (n + 1) ≤ 0x1000
      · rw [if_pos h3]
        simp only [firstFailing, checkWrite]
        by_cases h4 : s.i.toNat + (n + 1) > 0xFFF
        · rw [if_pos h4, if_neg (by omega)]
          simp only [Option.some.injEq, Prod.mk.injEq, true_and]; omega
        · rw [if_neg h4, if_neg (fun h => h2 ⟨h.1, by omega⟩), if_pos (by omega)]
      · rw [if_neg h3, if_neg (by omega)]

/-! ## The stack (10_state.md R29) -/

theorem State.push_of_lt (s : State) (a : Word) (h : s.sp.val < 16) :
    s.push a = some { s with stack := s.stack.set s.sp.val a, sp := ⟨s.sp.val + 1, by omega⟩ } := dif_pos h

theorem State.push_full (s : State) (a : Word) (h : s.sp.val = 16) : s.push a = none := dif_neg (by omega)

theorem State.pop_of_pos (s : State) (h : 0 < s.sp.val) :
    s.pop = some (s.stack[s.sp.val - 1], { s with sp := ⟨s.sp.val - 1, by omega⟩ }) := dif_pos h

theorem State.pop_empty (s : State) (h : s.sp.val = 0) : s.pop = none := dif_neg (by omega)

/-! ## Flag writes (42_alu.md R156) -/

theorem State.setRegThenFlag_reg_vf (s : State) (x : Reg) (b : Byte) (c : Bool) :
    (s.setRegThenFlag x b c).reg vf = flagByte c := State.reg_setReg_self _ _ _

theorem State.setRegThenFlag_reg (s : State) (x : Reg) (b : Byte) (c : Bool) {r : Reg} (h : r ≠ vf) :
    (s.setRegThenFlag x b c).reg r = if r = x then b else s.reg r := by
  unfold State.setRegThenFlag
  rw [State.reg_setReg_ne _ _ h, State.reg_setReg]

theorem State.setRegThenFlag_eq (s : State) (x : Reg) (b : Byte) (c : Bool) :
    s.setRegThenFlag x b c = { s with v := (s.setRegThenFlag x b c).v } := rfl

theorem State.shiftReg_eq (s : State) (x : Reg) (out : Byte → Bool) (value : Byte → Byte) :
    s.shiftReg x out value = { s with v := (s.shiftReg x out value).v } := by
  unfold State.shiftReg; split <;> rfl

theorem State.shiftReg_reg_vf (s : State) (x : Reg) (out : Byte → Bool) (value : Byte → Byte) :
    (s.shiftReg x out value).reg vf =
      if x = vf then shiftOfVf s.params.shiftVfOrder (out (s.reg vf)) value (s.reg vf) else flagByte (out (s.reg x)) := by
  unfold State.shiftReg
  split
  · exact State.reg_setReg_self _ _ _
  · rename_i h
    rw [State.reg_setReg_ne _ _ (Ne.symm h), State.reg_setReg_self]

theorem State.shiftReg_reg (s : State) (x : Reg) (out : Byte → Bool) (value : Byte → Byte) {r : Reg} (h : r ≠ vf) :
    (s.shiftReg x out value).reg r = if r = x then value (s.reg x) else s.reg r := by
  unfold State.shiftReg
  split
  · subst x; rw [State.reg_setReg_ne _ _ h, if_neg h]
  · rw [State.reg_setReg, State.reg_setReg_ne _ _ h]

/-! ## Register blocks (43_index_memory.md R174, R175) -/

@[simp] theorem State.length_regBlock (s : State) (x : Reg) : (s.regBlock x).length = x.toNat + 1 := by
  have := x.isLt
  simp only [State.regBlock, List.length_take, Vector.length_toList]; omega

theorem State.getD_regBlock (s : State) (x r : Reg) (h : r.toNat ≤ x.toNat) : (s.regBlock x).getD r.toNat 0 = s.reg r := by
  have := r.isLt
  rw [List.getD_eq_getElem _ _ (by rw [State.length_regBlock]; omega)]
  simp [State.regBlock, State.reg]

theorem State.loadedRegs_getElem (s : State) (x r : Reg) :
    (s.loadedRegs x)[r.toNat] = if r.toNat ≤ x.toNat then s.mem.read (s.i.toNat + r.toNat) else s.reg r := by
  simp only [State.loadedRegs, Vector.getElem_ofFn, State.effAddr]
  rfl

@[simp] theorem length_bcdDigits (b : Byte) : (bcdDigits b).length = 3 := rfl

end Sys2Proof.Machine
end

