-- ==== Sys2Proof/Laws/PerInstr.lean ====
section
/-! SUPPORT. Per-instruction facts: the word of a well-formed instruction selects the instruction's row of the opcode map. -/

namespace Sys2Proof

/-! ## A word under the masks of 30_encoding.md R84 -/

theorem append_and_append {m n : Nat} (a c : BitVec m) (b d : BitVec n) : (a ++ b) &&& (c ++ d) = (a &&& c) ++ (b &&& d) := by
  ext i h
  simp only [BitVec.getElem_and, BitVec.getElem_append]
  split <;> rfl

theorem and_F000_wordAddr (op : Nibble) (a : Addr) : wordAddr op a &&& 0xF000#16 = wordAddr op 0 := by
  rw [show 0xF000#16 = BitVec.allOnes 4 ++ 0#12 from rfl]
  unfold wordAddr
  rw [append_and_append, BitVec.and_allOnes, BitVec.and_zero]
  rfl

theorem and_F000_wordXKK (op x : Nibble) (kk : Byte) : wordXKK op x kk &&& 0xF000#16 = wordXKK op 0 0 := by
  rw [show 0xF000#16 = BitVec.allOnes 4 ++ 0#4 ++ 0#8 from rfl]
  unfold wordXKK
  rw [append_and_append, append_and_append, BitVec.and_allOnes, BitVec.and_zero, BitVec.and_zero]
  rfl

theorem and_F0FF_wordXKK (op x : Nibble) (kk : Byte) : wordXKK op x kk &&& 0xF0FF#16 = wordXKK op 0 kk := by
  rw [show 0xF0FF#16 = BitVec.allOnes 4 ++ 0#4 ++ BitVec.allOnes 8 from rfl]
  unfold wordXKK
  rw [append_and_append, append_and_append, BitVec.and_allOnes, BitVec.and_zero, BitVec.and_allOnes]
  rfl

theorem and_F000_wordXYN (op x y n : Nibble) : wordXYN op x y n &&& 0xF000#16 = wordXYN op 0 0 0 := by
  rw [show 0xF000#16 = BitVec.allOnes 4 ++ 0#4 ++ 0#4 ++ 0#4 from rfl]
  unfold wordXYN
  rw [append_and_append, append_and_append, append_and_append, BitVec.and_allOnes, BitVec.and_zero, BitVec.and_zero, BitVec.and_zero]
  rfl

theorem and_F00F_wordXYN (op x y n : Nibble) : wordXYN op x y n &&& 0xF00F#16 = wordXYN op 0 0 n := by
  rw [show 0xF00F#16 = BitVec.allOnes 4 ++ 0#4 ++ 0#4 ++ BitVec.allOnes 4 from rfl]
  unfold wordXYN
  rw [append_and_append, append_and_append, append_and_append, BitVec.and_allOnes, BitVec.and_zero, BitVec.and_zero, BitVec.and_allOnes]
  rfl

theorem and_F00F_wordZero (nn : Byte) (n : Nibble) : wordZero nn n &&& 0xF00F#16 = wordZero 0 n := by
  rw [show 0xF00F#16 = BitVec.allOnes 4 ++ 0#8 ++ BitVec.allOnes 4 from rfl]
  unfold wordZero
  rw [append_and_append, append_and_append, BitVec.and_allOnes, BitVec.and_zero, BitVec.and_allOnes]
  rfl

end Sys2Proof

namespace Sys2Proof.Laws.RowOfWord

/-- Under either setting of ZERO_GROUP_DECODE, where the instruction is well formed and has a row, its word selects the row. -/
def Statement (i : Instr) : Prop :=
  ∀ (z : ZeroGroupDecode) (r : OpcodeRow), i.wellFormed z = true → i.row z = some r → r.selects (encode i) = true

/-- A row that does not depend on the setting. -/
theorem of_row {i : Instr} {r : OpcodeRow} (hr : ∀ z, i.row z = some r) (h : encode i &&& r.mask = r.bits) : Statement i := by
  intro z r' _ hr'
  rw [hr z] at hr'
  cases hr'
  exact beq_iff_eq.2 h

theorem cls (nn : Byte) : Statement (.cls nn) := by
  intro z r hw hr
  cases z with
  | lowNibble => cases hr; exact beq_iff_eq.2 (and_F00F_wordZero nn 0x0)
  | exact =>
    cases hr
    have h : nn = 0 := beq_iff_eq.1 hw
    subst h
    rfl
theorem ret (nn : Byte) : Statement (.ret nn) := of_row (fun _ => rfl) (and_F00F_wordZero ..)
theorem jp (addr : Addr) : Statement (.jp addr) := of_row (fun _ => rfl) (and_F000_wordAddr ..)
theorem call (addr : Addr) : Statement (.call addr) := of_row (fun _ => rfl) (and_F000_wordAddr ..)
theorem seImm (x : Reg) (kk : Byte) : Statement (.seImm x kk) := of_row (fun _ => rfl) (and_F000_wordXKK ..)
theorem sneImm (x : Reg) (kk : Byte) : Statement (.sneImm x kk) := of_row (fun _ => rfl) (and_F000_wordXKK ..)
theorem seReg (x : Reg) (y : Reg) (n : Nibble) : Statement (.seReg x y n) := of_row (fun _ => rfl) (and_F000_wordXYN ..)
theorem ldImm (x : Reg) (kk : Byte) : Statement (.ldImm x kk) := of_row (fun _ => rfl) (and_F000_wordXKK ..)
theorem addImm (x : Reg) (kk : Byte) : Statement (.addImm x kk) := of_row (fun _ => rfl) (and_F000_wordXKK ..)
theorem ldReg (x : Reg) (y : Reg) : Statement (.ldReg x y) := of_row (fun _ => rfl) (and_F00F_wordXYN ..)
theorem orReg (x : Reg) (y : Reg) : Statement (.orReg x y) := of_row (fun _ => rfl) (and_F00F_wordXYN ..)
theorem andReg (x : Reg) (y : Reg) : Statement (.andReg x y) := of_row (fun _ => rfl) (and_F00F_wordXYN ..)
theorem xorReg (x : Reg) (y : Reg) : Statement (.xorReg x y) := of_row (fun _ => rfl) (and_F00F_wordXYN ..)
theorem addReg (x : Reg) (y : Reg) : Statement (.addReg x y) := of_row (fun _ => rfl) (and_F00F_wordXYN ..)
theorem subReg (x : Reg) (y : Reg) : Statement (.subReg x y) := of_row (fun _ => rfl) (and_F00F_wordXYN ..)
theorem shr (x : Reg) (y : Reg) : Statement (.shr x y) := of_row (fun _ => rfl) (and_F00F_wordXYN ..)
theorem subnReg (x : Reg) (y : Reg) : Statement (.subnReg x y) := of_row (fun _ => rfl) (and_F00F_wordXYN ..)
theorem shl (x : Reg) (y : Reg) : Statement (.shl x y) := of_row (fun _ => rfl) (and_F00F_wordXYN ..)
theorem sneReg (x : Reg) (y : Reg) (n : Nibble) : Statement (.sneReg x y n) := of_row (fun _ => rfl) (and_F000_wordXYN ..)
theorem ldI (addr : Addr) : Statement (.ldI addr) := of_row (fun _ => rfl) (and_F000_wordAddr ..)
theorem jpV0 (addr : Addr) : Statement (.jpV0 addr) := of_row (fun _ => rfl) (and_F000_wordAddr ..)
theorem rnd (x : Reg) (kk : Byte) : Statement (.rnd x kk) := of_row (fun _ => rfl) (and_F000_wordXKK ..)
theorem drw (x : Reg) (y : Reg) (n : Nibble) : Statement (.drw x y n) := of_row (fun _ => rfl) (and_F000_wordXYN ..)
theorem skp (x : Reg) : Statement (.skp x) := of_row (fun _ => rfl) (and_F0FF_wordXKK ..)
theorem sknp (x : Reg) : Statement (.sknp x) := of_row (fun _ => rfl) (and_F0FF_wordXKK ..)
theorem ldVxDt (x : Reg) : Statement (.ldVxDt x) := of_row (fun _ => rfl) (and_F0FF_wordXKK ..)
theorem ldVxK (x : Reg) : Statement (.ldVxK x) := of_row (fun _ => rfl) (and_F0FF_wordXKK ..)
theorem ldDtVx (x : Reg) : Statement (.ldDtVx x) := of_row (fun _ => rfl) (and_F0FF_wordXKK ..)
theorem ldStVx (x : Reg) : Statement (.ldStVx x) := of_row (fun _ => rfl) (and_F0FF_wordXKK ..)
theorem addI (x : Reg) : Statement (.addI x) := of_row (fun _ => rfl) (and_F0FF_wordXKK ..)
theorem ldF (x : Reg) : Statement (.ldF x) := of_row (fun _ => rfl) (and_F0FF_wordXKK ..)
theorem ldB (x : Reg) : Statement (.ldB x) := of_row (fun _ => rfl) (and_F0FF_wordXKK ..)
theorem storeRegs (x : Reg) : Statement (.storeRegs x) := of_row (fun _ => rfl) (and_F0FF_wordXKK ..)
theorem loadRegs (x : Reg) : Statement (.loadRegs x) := of_row (fun _ => rfl) (and_F0FF_wordXKK ..)
theorem unhandled (w : Word) : Statement (.unhandled w) := fun _ _ _ hr => nomatch hr

end Sys2Proof.Laws.RowOfWord
end

