-- ==== Sys2Proof/Tests/Slice0.lean ====
section
/-! SUPPORT. Tests. Expected values come from spec/95_test_vectors.md (the vector's id is in the docstring) or, for the words, from
the patterns of 30_encoding.md R84. No expected value is the model's own answer. -/

namespace Sys2Proof.Tests

open Sys2Proof.Machine

/-! ## Well-formedness: each check refuses an ill-formed term -/

/-- Under EXACT only the word 0x0000 is CLS. -/
theorem test_wf_cls_ill : (Instr.cls 0x0E).wellFormed .exact = false := by decide
theorem test_wf_cls : (Instr.cls 0x00).wellFormed .exact = true ∧ (Instr.cls 0x0E).wellFormed .lowNibble = true := by decide
/-- 0x00E0 is CLS under LOW_NIBBLE, so it is no unhandled word there; 0x5127 is SE under both. -/
theorem test_wf_unhandled_ill :
    (Instr.unhandled 0x00E0).wellFormed .lowNibble = false ∧ (Instr.unhandled 0x5127).wellFormed .exact = false := by decide
theorem test_wf_unhandled :
    (Instr.unhandled 0x00E0).wellFormed .exact = true ∧ (Instr.unhandled 0x8008).wellFormed .lowNibble = true := by decide

/-! ## Decoding: a word of every constructor, read off the patterns of R84 -/

theorem test_decode_group0 :
    decode .lowNibble 0b0000_00001110_0000 = .cls 0x0E ∧ decode .exact 0x0000 = .cls 0x00 ∧
    decode .lowNibble 0b0000_00001110_1110 = .ret 0x0E ∧ decode .exact 0x0FFE = .ret 0xFF ∧
    decode .exact 0x0120 = .unhandled 0x0120 := by decide
theorem test_decode_jumps :
    decode .lowNibble 0b0001_101010111100 = .jp 0xABC ∧ decode .lowNibble 0b0010_001100000000 = .call 0x300 ∧
    decode .lowNibble 0b1011_111111111111 = .jpV0 0xFFF := by decide
theorem test_decode_skips :
    decode .lowNibble 0b0011_0010_00000101 = .seImm 2 0x05 ∧ decode .lowNibble 0b0100_0010_00000101 = .sneImm 2 0x05 ∧
    decode .lowNibble 0b0101_0001_0010_0111 = .seReg 1 2 7 ∧ decode .lowNibble 0b1001_0001_0010_0000 = .sneReg 1 2 0 ∧
    decode .lowNibble 0b1110_0011_10011110 = .skp 3 ∧ decode .lowNibble 0b1110_0011_10100001 = .sknp 3 := by decide
theorem test_decode_immediates :
    decode .lowNibble 0b0110_1010_00000101 = .ldImm 0xA 0x05 ∧ decode .lowNibble 0b0111_1111_11110101 = .addImm 0xF 0xF5 ∧
    decode .lowNibble 0b1100_0011_00001111 = .rnd 3 0x0F := by decide
theorem test_decode_alu_low :
    decode .lowNibble 0b1000_0001_0010_0000 = .ldReg 1 2 ∧ decode .lowNibble 0b1000_0001_0010_0001 = .orReg 1 2 ∧
    decode .lowNibble 0b1000_0001_0010_0010 = .andReg 1 2 ∧ decode .lowNibble 0b1000_0001_0010_0011 = .xorReg 1 2 ∧
    decode .lowNibble 0b1000_0001_0010_0100 = .addReg 1 2 := by decide
theorem test_decode_alu_high :
    decode .lowNibble 0b1000_0001_0010_0101 = .subReg 1 2 ∧ decode .lowNibble 0b1000_0001_1111_0110 = .shr 1 0xF ∧
    decode .lowNibble 0b1000_0001_0010_0111 = .subnReg 1 2 ∧ decode .lowNibble 0b1000_1111_0000_1110 = .shl 0xF 0 := by decide
theorem test_decode_index :
    decode .lowNibble 0b1010_001100000000 = .ldI 0x300 ∧ decode .lowNibble 0b1111_0010_00011110 = .addI 2 ∧
    decode .lowNibble 0b1111_0100_00101001 = .ldF 4 ∧ decode .lowNibble 0b1111_0000_00110011 = .ldB 0 ∧
    decode .lowNibble 0b1111_0010_01010101 = .storeRegs 2 ∧ decode .lowNibble 0b1111_0010_01100101 = .loadRegs 2 := by decide
theorem test_decode_display_timers :
    decode .lowNibble 0b1101_0001_0010_0101 = .drw 1 2 5 ∧ decode .lowNibble 0b1111_0101_00000111 = .ldVxDt 5 ∧
    decode .lowNibble 0b1111_0010_00001010 = .ldVxK 2 ∧ decode .lowNibble 0b1111_0011_00010101 = .ldDtVx 3 ∧
    decode .lowNibble 0b1111_0011_00011000 = .ldStVx 3 := by decide
/-- 95_test_vectors.md A4, A5, A10. -/
theorem test_decode_unhandled :
    decode .lowNibble 0x8008 = .unhandled 0x8008 ∧ decode .lowNibble 0x0123 = .unhandled 0x0123 ∧
    decode .lowNibble 0xE09F = .unhandled 0xE09F ∧ decode .lowNibble 0xF0FF = .unhandled 0xF0FF := by decide
theorem test_decode_truncated : decodeBytes .lowNibble [0x12] = .error .truncated := by decide
theorem test_decodeTableWord : decodeTableWord 16 0xD125 = some (.drw 1 2 5) := by decide

/-! ## Small states, and one step on them -/

/-- The input record of 95_test_vectors.md, Conventions: `exec_due` = 1, all else 0. -/
def due : Ev where
  pauseToggle := false
  keysIn      := 0
  execDue     := true
  stepReq     := false
  timerDue    := false
  rndIn       := 0

/-- A record with no strobe. -/
def quiet : Ev := { due with execDue := false }

/-- The reset state after a Load that put the word `w` at 0x200, with an iteration on `ev` pending. -/
def startOn (ev : Ev) (w : Word) : State :=
  { State.reset with
    mem := Memory.write (Memory.write [] 0x200 (w.extractLsb' 8 8)) 0x201 (w.extractLsb' 0 8),
    boot := .loaded, host := [.iterate ev] }

/-- The same with the record `due`. -/
def start (w : Word) : State := startOn due w

/-- Whether a step gives a next state with a property. -/
def stepsTo (s : State) (p : State → Bool) : Bool :=
  match step s with
  | .next t => p t
  | .fault _ | .refused _ => false

/-- Whether the machine is faulted with a given record (95_test_vectors.md, Conventions). -/
def isFault (cause : FaultCause) (pc word : Word) (addr : BitVec 17) (t : State) : Bool :=
  t.faulted && t.faultCause == cause && t.faultPc == pc && t.faultWord == word && t.faultAddr == addr && t.pc == pc

/-- One listed sprite byte, memory otherwise as `start` has it. -/
def withByte (s : State) (a : Nat) (b : Byte) : State := { s with mem := s.mem.write a b }

/-- E1, A6. -/
theorem test_cls : stepsTo { start 0x0120 with fb := Display.clear.toggle 0 0 }
    (fun t => !t.fb.pixel 0 0 && t.pc == 0x202) = true := by decide
/-- B8: the slot keeps its value. -/
theorem test_ret : stepsTo { start 0x00EE with stack := (Vector.replicate 16 0).set 1 0x444, sp := 2 }
    (fun t => t.pc == 0x444 && t.sp == 1 && t.stack[1] == 0x444) = true := by decide
/-- B9. -/
theorem test_ret_empty : stepsTo (start 0x00EE) (isFault .stackUnderflow 0x200 0x00EE 0) = true := by decide
/-- B1. -/
theorem test_jp : stepsTo (start 0x1ABC) (fun t => t.pc == 0xABC) = true := by decide
/-- B6: the last free slot. -/
theorem test_call : stepsTo { start 0x2300 with sp := 15 }
    (fun t => t.stack[15] == 0x202 && t.sp == 16 && t.pc == 0x300) = true := by decide
/-- B7. -/
theorem test_call_full : stepsTo { start 0x2300 with sp := 16 } (isFault .stackOverflow 0x200 0x2300 16) = true := by decide
/-- B10, B11 at 0x200. -/
theorem test_seImm : stepsTo ((start 0x3205).setReg 2 0x05) (fun t => t.pc == 0x204) = true := by decide
theorem test_seImm_not : stepsTo ((start 0x3205).setReg 2 0x06) (fun t => t.pc == 0x202) = true := by decide
/-- B12, B13 at 0x200. -/
theorem test_sneImm : stepsTo ((start 0x4205).setReg 2 0x06) (fun t => t.pc == 0x204) = true := by decide
theorem test_sneImm_not : stepsTo ((start 0x4205).setReg 2 0x05) (fun t => t.pc == 0x202) = true := by decide
/-- B16. -/
theorem test_seReg : stepsTo (((start 0x5127).setReg 1 0x33).setReg 2 0x33) (fun t => t.pc == 0x204) = true := by decide
/-- B18, B19. -/
theorem test_sneReg : stepsTo (((start 0x9120).setReg 1 0x33).setReg 2 0x34) (fun t => t.pc == 0x204) = true := by decide
theorem test_sneReg_same : stepsTo ((start 0x9110).setReg 1 0x33) (fun t => t.pc == 0x202) = true := by decide
/-- L1-8, C2. -/
theorem test_ldImm : stepsTo (start 0x6A05) (fun t => t.reg 0xA == 0x05 && t.pc == 0x202) = true := by decide
/-- C3: no flag. -/
theorem test_addImm_wraps : stepsTo (((start 0x7001).setReg 0 0xFF).setReg 0xF 0x55)
    (fun t => t.reg 0 == 0x00 && t.reg 0xF == 0x55) = true := by decide
/-- C6. -/
theorem test_ldReg : stepsTo (((start 0x8120).setReg 1 0x12).setReg 2 0x34) (fun t => t.reg 1 == 0x34) = true := by decide
/-- C7. -/
theorem test_orReg : stepsTo ((((start 0x8121).setReg 1 0x0F).setReg 2 0xF0).setReg 0xF 0x55)
    (fun t => t.reg 1 == 0xFF && t.reg 0xF == 0x55) = true := by decide
/-- C8. -/
theorem test_andReg : stepsTo (((start 0x8122).setReg 1 0x3C).setReg 2 0x0F) (fun t => t.reg 1 == 0x0C) = true := by decide
/-- C9. -/
theorem test_xorReg : stepsTo (((start 0x8123).setReg 1 0x3C).setReg 2 0x0F) (fun t => t.reg 1 == 0x33) = true := by decide
/-- L1-1, C13. -/
theorem test_addReg : stepsTo (((start 0x8124).setReg 1 0xC8).setReg 2 0x64)
    (fun t => t.reg 1 == 0x2C && t.reg 0xF == 1) = true := by decide
theorem test_addReg_vf : stepsTo (((start 0x8F14).setReg 1 0xF5).setReg 0xF 0x10) (fun t => t.reg 0xF == 0x01) = true := by decide
/-- L1-3; L1-11 under LEGACY_PARITY. -/
theorem test_subReg : stepsTo (((start 0x8125).setReg 1 0x05).setReg 2 0x64)
    (fun t => t.reg 1 == 0xA1 && t.reg 0xF == 0) = true := by decide
theorem test_subReg_legacy :
    stepsTo { ((start 0x8125).setReg 1 0x07).setReg 2 0x07 with params := { Config.defaults with legacyParity := true } }
      (fun t => t.reg 1 == 0x00 && t.reg 0xF == 0) = true := by decide
/-- C18, C23. -/
theorem test_shr : stepsTo ((start 0x8106).setReg 1 0x05) (fun t => t.reg 1 == 0x02 && t.reg 0xF == 1) = true := by decide
theorem test_shr_vf :
    stepsTo ((start 0x8F06).setReg 0xF 0x81) (fun t => t.reg 0xF == 0x40) = true ∧
    stepsTo { (start 0x8F06).setReg 0xF 0x81 with params := { Config.defaults with shiftVfOrder := .flagWins } }
      (fun t => t.reg 0xF == 0x01) = true := by decide
/-- C16, C17. -/
theorem test_subnReg : stepsTo (((start 0x8127).setReg 1 0x01).setReg 2 0x00)
    (fun t => t.reg 1 == 0xFF && t.reg 0xF == 0) = true := by decide
theorem test_subnReg_equal : stepsTo (((start 0x8127).setReg 1 0x07).setReg 2 0x07)
    (fun t => t.reg 1 == 0x00 && t.reg 0xF == 1) = true := by decide
/-- C20, L1-12. -/
theorem test_shl :
    stepsTo ((start 0x810E).setReg 1 0x81) (fun t => t.reg 1 == 0x02 && t.reg 0xF == 1) = true ∧
    stepsTo { (start 0x810E).setReg 1 0x81 with params := { Config.defaults with legacyParity := true } }
      (fun t => t.reg 1 == 0x40 && t.reg 0xF == 1) = true := by decide
/-- C24 under SEQUENTIAL. -/
theorem test_shl_vf :
    stepsTo { (start 0x8F0E).setReg 0xF 0x81 with params := { Config.defaults with shiftVfOrder := .sequential } }
      (fun t => t.reg 0xF == 0x02) = true := by decide
/-- D1. -/
theorem test_ldI : stepsTo (start 0xA300) (fun t => t.i == 0x300 && t.pc == 0x202) = true := by decide
/-- B21: the sum is not wrapped to 12 bits. -/
theorem test_jpV0 : stepsTo ((start 0xBFFF).setReg 0 0xFF) (fun t => t.pc == 0x10FE) = true := by decide
/-- C26. -/
theorem test_rnd : stepsTo (startOn { due with rndIn := 0xA7 } 0xC30F) (fun t => t.reg 3 == 0x07) = true := by decide
/-- E2. -/
theorem test_drw : stepsTo { withByte (start 0xD011) 0x300 0xFF with i := 0x300, fb := Display.clear.toggle 3 0 }
    (fun t => t.fb.pixel 2 0 && !t.fb.pixel 3 0 && t.fb.pixel 7 0 && !t.fb.pixel 8 0 && t.reg 0xF == 1) = true := by decide
/-- E6: both edges wrap. -/
theorem test_drw_wrap :
    stepsTo { withByte (withByte (((start 0xD012).setReg 0 0x3E).setReg 1 0x1F) 0x300 0xC0) 0x301 0x81 with i := 0x300 }
      (fun t => t.fb.pixel 62 31 && t.fb.pixel 63 31 && t.fb.pixel 62 0 && t.fb.pixel 5 0 && !t.fb.pixel 0 31 && t.reg 0xF == 0)
      = true := by decide
/-- B24, B28. -/
theorem test_skp : stepsTo ((startOn { due with keysIn := 0x0080 } 0xE39E).setReg 3 0x07) (fun t => t.pc == 0x204) = true := by decide
theorem test_skp_index : stepsTo ((start 0xE39E).setReg 3 0x10) (isFault .keyIndex 0x200 0xE39E 0x10) = true := by decide
/-- B27, B30. -/
theorem test_sknp : stepsTo ((startOn { due with keysIn := 0x0080 } 0xE3A1).setReg 3 0x07) (fun t => t.pc == 0x202) = true := by decide
theorem test_sknp_notPressed :
    stepsTo { (startOn { due with keysIn := 0x0080 } 0xE3A1).setReg 3 0x17 with
      params := { Config.defaults with keyIndexPolicy := .notPressed } } (fun t => t.pc == 0x204) = true := by decide
/-- F2: read before the tick. -/
theorem test_ldVxDt : stepsTo { startOn { due with timerDue := true } 0xF507 with dt := 5 }
    (fun t => t.reg 5 == 5 && t.dt == 4) = true := by decide
/-- L1-9, first iteration. -/
theorem test_ldVxK : stepsTo (start 0xF00A) (fun t => t.awaiting && t.waitReg == 0 && t.pc == 0x202 && t.reg 0 == 0) = true := by decide
/-- F4: the tick follows the write. -/
theorem test_ldDtVx : stepsTo ((startOn { due with timerDue := true } 0xF315).setReg 3 0x03) (fun t => t.dt == 2) = true := by decide
/-- F5. -/
theorem test_ldStVx : stepsTo ((start 0xF318).setReg 3 0x02) (fun t => t.st == 2 && t.soundActive) = true := by decide
/-- D3. -/
theorem test_addI_wraps : stepsTo { (start 0xF01E).setReg 0 0x01 with i := 0xFFFF } (fun t => t.i == 0) = true := by decide
/-- D6. -/
theorem test_ldF : stepsTo ((start 0xF429).setReg 4 0x1A) (fun t => t.i == 0x032) = true := by decide
/-- D8, D13. -/
theorem test_ldB : stepsTo { (start 0xF033).setReg 0 0xFE with i := 0x300 }
    (fun t => t.mem.read 0x300 == 2 && t.mem.read 0x301 == 5 && t.mem.read 0x302 == 4) = true := by decide
theorem test_ldB_font : stepsTo { start 0xF033 with i := 0x04E } (isFault .fontWrite 0x200 0xF033 0x04E) = true := by decide
/-- D15, D17. -/
theorem test_storeRegs : stepsTo { (((start 0xF255).setReg 0 1).setReg 1 2).setReg 2 3 with i := 0x400 }
    (fun t => t.mem.read 0x400 == 1 && t.mem.read 0x401 == 2 && t.mem.read 0x402 == 3 && t.mem.read 0x403 == 0 && t.i == 0x400)
    = true := by decide
theorem test_storeRegs_range : stepsTo { start 0xFF55 with i := 0xFF1 }
    (fun t => isFault .dataRange 0x200 0xFF55 0x1000 t && t.mem.read 0xFF1 == 0) = true := by decide
/-- D21, D22. -/
theorem test_loadRegs : stepsTo (start 0xF465)
    (fun t => t.reg 0 == 0xF0 && t.reg 1 == 0x90 && t.reg 4 == 0xF0 && t.reg 5 == 0 && t.i == 0) = true := by decide
theorem test_loadRegs_range : stepsTo { start 0xF065 with i := 0xFFFF } (isFault .dataRange 0x200 0xF065 0xFFFF) = true := by decide
/-- A4. -/
theorem test_unhandled : stepsTo ((start 0x8008).setReg 0xF 0x55)
    (fun t => t.pc == 0x202 && t.curInstr == 0x8008 && t.reg 0xF == 0x55 && t.diag == [.unhandled 0x200 0x8008]) = true := by decide

/-! ## The controller, Reset and Load -/

/-- A1. -/
theorem test_fetch_last : stepsTo { withByte (start 0) 0xFFE 0x12 with pc := 0xFFE }
    (fun t => t.pc == 0x200 && t.curInstr == 0x1200) = true := by decide
/-- A2. -/
theorem test_fetch_above : stepsTo { start 0 with pc := 0xFFF }
    (fun t => isFault .fetchRange 0xFFF 0x0000 0x1000 t && t.curInstr == 0) = true := by decide
/-- A13: the toggle comes before the step. -/
theorem test_pause_first : stepsTo (startOn { due with pauseToggle := true } 0x7001) (fun t => t.paused && t.pc == 0x200) = true := by decide
/-- A14. -/
theorem test_faulted_iteration :
    stepsTo { startOn { due with pauseToggle := true, timerDue := true, keysIn := 0x0004 } 0x7001 with faulted := true, dt := 5 }
      (fun t => t.key == 4 && t.prevKey == 4 && !t.paused && t.dt == 5 && t.pc == 0x200) = true := by decide
/-- F11: the lowest edge. -/
theorem test_key_wait : stepsTo { startOn { quiet with keysIn := 0x0208 } 0 with awaiting := true, waitReg := 2 }
    (fun t => t.reg 2 == 3 && !t.awaiting) = true := by decide
/-- F6, F7. -/
theorem test_timers : stepsTo { startOn { quiet with timerDue := true } 0 with st := 1 }
    (fun t => t.st == 0 && t.dt == 0 && !t.soundActive) = true := by decide
/-- G1. -/
theorem test_reset : stepsTo { start 0 with faulted := true, pc := 0x333, host := [.reset] }
    (fun t => !t.faulted && t.pc == 0x200 && t.mem.read 0 == 0xF0 && t.mem.read 1 == 0x90 && t.mem.read 0x200 == 0) = true := by decide
/-- 70_reset_and_hazards.md R255: bytes at 0x200 and above; R256: a file that cannot be opened. -/
theorem test_load : stepsTo { State.reset with host := [.load (some [0x12, 0x34])] }
    (fun t => t.mem.read 0x200 == 0x12 && t.mem.read 0x201 == 0x34 && t.boot == .loaded) = true := by decide
theorem test_load_unreadable : stepsTo { State.reset with host := [.load none] } (fun t => t.boot == .failed .unreadable) = true := by decide
/-- G4: a Load of no bytes succeeds, and then the first step is CLS at 0x200. -/
theorem test_load_empty : stepsTo { State.reset with host := [.load (some []), .iterate due] }
    (fun t => t.boot == .loaded && t.host == [.iterate due] && stepsTo t (fun u => u.pc == 0x202 && u.curInstr == 0)) = true := by decide
/-- R257: no iteration before a Load; R256: nor after a failed Load and a Reset. -/
theorem test_no_iteration_before_load :
    step { State.reset with host := [.iterate due] } = .refused .iterationBeforeLoad ∧
    ∃ t, step { State.reset with boot := .failed .tooLarge, host := [.reset, .iterate due] } = .next t ∧
      step t = .refused .iterationBeforeLoad := ⟨rfl, _, rfl, rfl⟩
theorem test_withFetchWord : stepsTo (State.reset.withFetchWord 16 0x6A05) (fun t => t.reg 0xA == 0x05 && t.pc == 0x202) = true := by decide
/-- The font of 10_state.md R31 is what the reset memory reads as. -/
theorem test_reset_font : Memory.afterReset Config.defaults.fontGlyphs = [] := by decide
/-- 60_exceptions.md R221: the codes of the causes. -/
theorem test_fault_codes :
    [FaultCause.none, .fetchRange, .dataRange, .stackOverflow, .stackUnderflow, .fontWrite, .keyIndex].map FaultCause.code =
      [0, 1, 2, 3, 4, 5, 6] := by decide

/-! ## Witnesses: for every statement with hypotheses, states and operands that meet them together -/

/-- The start states meet `Runs`. -/
theorem start_runs (w : Word) : (start w).Runs due := ⟨⟨rfl, rfl⟩, rfl, rfl⟩

theorem start_iterates (ev : Ev) (w : Word) : (startOn ev w).Iterates ev := ⟨rfl, rfl⟩

theorem test_witness_DecodeInvertsEncode :
    (Instr.cls 0).wellFormed .exact = true ∧ (Instr.drw 0xF 0 5).wellFormed .lowNibble = true ∧
    (Instr.unhandled 0xFFFF).wellFormed .exact = true := by decide

theorem test_witness_DecodeFollowsTheOpcodeMap :
    (decode .exact 0xD125).row .exact = some ⟨0xF000, 0xD000⟩ ∧
    (⟨0xF0FF, 0xF065⟩ ∈ opcodeMap .lowNibble ∧ 0xFF65#16 &&& 0xF0FF = 0xF065) ∧
    (decode .lowNibble 0x800F).row .lowNibble = none := by decide

theorem test_witness_GroupZeroDecodesByParameter :
    opField 0x00E0 = 0 ∧ nField 0x00E0 = 0 ∧ midField 0x00E0 ≠ 0 ∧ opField 0x0000 = 0 ∧ midField 0x0000 = 0 := by decide

/-- At 0x200, and at 0xFFE, the last address a fetch may start from. -/
theorem test_witness_StepRunsTheDecodedInstruction :
    ((start 0x6A05).Iterates due ∧ (start 0x6A05).faulted = false ∧ ((start 0x6A05).beforeStep due).stepGate due = true ∧
      (start 0x6A05).pc.toNat ≤ 0x0FFE ∧ decodeBytes .lowNibble ((start 0x6A05).mem.readBytes 0x200 2) = .ok (.ldImm 0xA 5, [])) ∧
    (let s : State := { start 0 with pc := 0xFFE }
     s.Iterates due ∧ (s.beforeStep due).stepGate due = true ∧ s.pc.toNat ≤ 0x0FFE ∧
      decodeBytes .lowNibble (s.mem.readBytes 0xFFE 2) = .ok (.cls 0, [])) :=
  ⟨⟨start_iterates _ _, by decide, by decide, by decide, by decide⟩, ⟨rfl, rfl⟩, by decide, by decide, by decide⟩

/-- Both sides of the record's address, and an iteration that resolves a wait with PC at 0x1000. -/
theorem test_witness_FetchAboveMemoryFaults :
    (let s : State := { start 0 with pc := 0xFFF }
     s.Iterates due ∧ s.faulted = false ∧ (s.beforeStep due).stepGate due = true ∧ s.pc.toNat > 0x0FFE ∧ ¬ s.pc.toNat > 0x0FFF) ∧
    (let ev : Ev := { due with keysIn := 0x0080 }
     let s : State := { startOn ev 0 with pc := 0x1000, awaiting := true }
     s.Iterates ev ∧ s.faulted = false ∧ (s.beforeStep ev).stepGate ev = true ∧ s.pc.toNat > 0x0FFF) :=
  ⟨⟨⟨rfl, rfl⟩, by decide, by decide, by decide, by decide⟩, ⟨rfl, rfl⟩, by decide, by decide, by decide⟩

theorem test_witness_UnhandledWordIsANoOpWithAnEvent :
    (start 0x8008).Runs due ∧ due.timerDue = false ∧ (start 0x8008).pc.toNat ≤ 0x0FFE ∧
    isUnhandledWord (start 0x8008).params.zeroGroupDecode (start 0x8008).fetchWord = true :=
  ⟨start_runs _, by decide, by decide, by decide⟩

theorem test_witness_FaultedMachineIsFrozen :
    let s : State := { start 0x7001 with faulted := true }
    s.faulted = true ∧ s.Iterates due ∧ s.pendingOp ≠ .reset ∧ ∃ t, step s = .next t :=
  ⟨rfl, ⟨rfl, rfl⟩, by decide, _, rfl⟩

theorem test_witness_IterationEndsWithTheKeySample :
    (start 0x7001).Iterates due ∧ ∃ t, step (start 0x7001) = .next t := ⟨start_iterates _ _, _, rfl⟩

/-- Keys 0 and 15, the ends of the range; a held key is no edge. -/
theorem test_witness_LowestPressEdgeResolvesTheWait :
    (let s : State := { start 0 with awaiting := true }
     s.awaiting = true ∧ s.Edge { due with keysIn := 0x8001 } 0 ∧ s.Edge { due with keysIn := 0x8000 } 15 ∧
      (∀ j, j < 15 → ¬ s.Edge { due with keysIn := 0x8000 } j)) ∧
    (let s : State := { start 0 with awaiting := true, prevKey := 0x8000 }
     s.awaiting = true ∧ ∀ k, k < 16 → ¬ s.Edge { due with keysIn := 0x8000 } k) ∧
    (start 0).awaiting = false := by
  unfold State.Edge
  decide

/-- A due iteration; a running machine without a strobe, with a timer strobe and without; and on an awaiting, paused machine and on one
not paused, the edges of keys 0 and 15. -/
theorem test_witness_ExecutorGateFollowsTheTable :
    (start 0).Iterates due ∧ (start 0).faulted = false ∧
    (∀ b, let ev : Ev := { quiet with timerDue := b }
      let s := startOn ev 0
      s.Iterates ev ∧ s.faulted = false ∧ s.awaiting = false ∧ s.pausedNow ev = false ∧ (s.beforeStep ev).stepGate ev = false) ∧
    (∀ p, ∀ k : Fin 16, k = 0 ∨ k = 15 →
      let ev : Ev := { quiet with keysIn := 1#16 <<< k.val, timerDue := true }
      let s : State := { startOn ev 0 with awaiting := true, paused := p }
      s.Iterates ev ∧ s.faulted = false ∧ s.awaiting = true ∧ s.pausedNow ev = p ∧ s.Edge ev k ∧ (∀ j, j < k.val → ¬ s.Edge ev j) ∧
        (s.beforeStep ev).stepGate ev = false) := by
  refine ⟨start_iterates _ _, rfl, fun b => ⟨start_iterates _ _, rfl, rfl, rfl, rfl⟩, ?_⟩
  rintro p k (rfl | rfl) <;>
    exact ⟨⟨rfl, rfl⟩, rfl, rfl, Bool.xor_false p,
      by unfold State.Edge; decide +revert, by unfold State.Edge; decide +revert, by decide +revert⟩

/-- A held key, with the machine paused and not, with and without the timer strobe. -/
theorem test_witness_AwaitingMachineFetchesNothing :
    let s : State := { start 0 with awaiting := true, prevKey := 0x8000, host := [.iterate { due with keysIn := 0x8000 }] }
    s.Iterates { due with keysIn := 0x8000 } ∧ s.faulted = false ∧ s.awaiting = true ∧
      (∀ k, k < 16 → ¬ s.Edge { due with keysIn := 0x8000 } k) ∧ s.pausedNow due = false ∧
      s.pausedNow { due with pauseToggle := true } = true ∧ due.timerDue = false :=
  ⟨⟨rfl, rfl⟩, rfl, rfl, by unfold State.Edge; decide, by decide, by decide, rfl⟩

theorem test_witness_PauseStopsExecutorAndTimers :
    let ev : Ev := { due with pauseToggle := true, timerDue := true }
    (startOn ev 0).Iterates ev ∧ (startOn ev 0).faulted = false ∧ (startOn ev 0).pausedNow ev = true ∧ (startOn ev 0).awaiting = false :=
  ⟨start_iterates _ _, rfl, rfl, rfl⟩

/-- A step that goes on, one that faults, and one in an iteration that resolves a key wait. -/
theorem test_witness_TickFollowsTheStep :
    (let ev : Ev := { due with timerDue := true }
     let s : State := startOn ev 0xF315
     s.Runs ev ∧ s.pc.toNat ≤ 0x0FFE ∧ decode s.params.zeroGroupDecode s.fetchWord = .ldDtVx 3 ∧
       ∃ u, exec (.ldDtVx 3) (s.atExecute ev) = .next u ∧ u.faulted = false ∧ ev.timerDue = true) ∧
    (let s : State := start 0x00EE
     s.Runs due ∧ s.pc.toNat ≤ 0x0FFE ∧ decode s.params.zeroGroupDecode s.fetchWord = .ret 0x0E ∧
       ∃ u, exec (.ret 0x0E) (s.atExecute due) = .next u ∧ u.faulted = true) ∧
    (let ev : Ev := { due with keysIn := 0x0080, timerDue := true }
     let s : State := { startOn ev 0xF315 with awaiting := true, waitReg := 3 }
     s.Runs ev ∧ s.pc.toNat ≤ 0x0FFE ∧ decode s.params.zeroGroupDecode s.fetchWord = .ldDtVx 3 ∧
       ∃ u, exec (.ldDtVx 3) (s.atExecute ev) = .next u ∧ u.faulted = false ∧ ev.timerDue = true) :=
  ⟨⟨⟨⟨rfl, rfl⟩, rfl, rfl⟩, by decide, by decide, _, rfl, rfl, rfl⟩, ⟨start_runs _, by decide, by decide, _, rfl, rfl⟩,
    ⟨⟨rfl, rfl⟩, rfl, rfl⟩, by decide, by decide, _, rfl, rfl, rfl⟩

theorem test_witness_TimerAccessSeesTheOldCount :
    let ev : Ev := { due with timerDue := true }
    (∀ w, (startOn ev w).Runs ev) ∧ ev.timerDue = true ∧ (startOn ev 0).pc.toNat ≤ 0x0FFE ∧
      (startOn ev 0xF315).fetchWord = encode (.ldDtVx 3) ∧ (startOn ev 0xF507).fetchWord = encode (.ldVxDt 5) :=
  ⟨fun _ => ⟨⟨rfl, rfl⟩, rfl, rfl⟩, rfl, by decide, by decide, by decide⟩

theorem test_witness_ResetRestoresEveryElement :
    (State.reset.params = Config.defaults ∧ State.reset.host = [] ∧ State.reset.draws = 0 ∧ State.reset.diag = []) ∧
    ({ start 0 with host := [.reset] } : State).pendingOp = .reset := by decide

/-- An empty file and the longest one (G2). -/
theorem test_witness_LoadStoresTheProgram (n : Nat) (h : n = 0 ∨ n = 3584) :
    let s : State := { State.reset with host := [.load (some (List.replicate n 0xAA))] }
    s.pendingOp = .load (some (List.replicate n 0xAA)) ∧ s.boot = .fresh ∧ s.MemOk ∧ (List.replicate n (0xAA : Byte)).length ≤ 3584 :=
  ⟨rfl, rfl, ⟨rfl, rfl⟩, by rw [List.length_replicate]; omega⟩

/-- One byte too many (G3), no file, moves after a failed load, a Reset, an iteration before a Load, and a Load that succeeds. -/
theorem test_witness_FailedLoadStopsTheRun :
    (let s : State := { State.reset with host := [.load (some (List.replicate 3585 0xAA))] }
     s.pendingOp = .load (some (List.replicate 3585 0xAA)) ∧ s.boot = .fresh ∧ (List.replicate 3585 (0xAA : Byte)).length > 3584) ∧
    (let s : State := { State.reset with host := [.load none] }
     s.pendingOp = .load none ∧ s.boot = .fresh) ∧
    (let s : State := { start 0 with boot := .failed .tooLarge }
     s.boot = .failed .tooLarge ∧ s.pendingOp = .iterate due) ∧
    (let s : State := { State.reset with boot := .failed .tooLarge, host := [.setCycleHz 700] }
     s.boot = .failed .tooLarge ∧ s.pendingOp ≠ .reset ∧ ∃ t, step s = .next t) ∧
    (let s : State := { start 0 with host := [.reset] }
     s.pendingOp = .reset ∧ ∃ t, step s = .next t) ∧
    (let s : State := { State.reset with host := [.iterate due] }
     s.boot = .fresh ∧ s.pendingOp = .iterate due) ∧
    (let s : State := { State.reset with host := [.load (some [])] }
     s.boot.mayIterate = false ∧ ∃ t, step s = .next t ∧ t.boot.mayIterate = true) :=
  ⟨⟨rfl, rfl, by rw [List.length_replicate]; omega⟩, ⟨rfl, rfl⟩, ⟨rfl, rfl⟩, ⟨rfl, by decide, _, rfl⟩, ⟨rfl, _, rfl⟩, ⟨rfl, rfl⟩,
    rfl, _, rfl, rfl⟩

theorem test_witness_CycleRateTouchesNoState : ({ State.reset with host := [.setCycleHz 700] } : State).pendingOp = .setCycleHz 700 := by
  decide

/-- The first slot, the last slot, no slot. -/
theorem test_witness_CallPushesTheReturnAddress :
    (start 0).sp.val < 16 ∧ ({ start 0 with sp := 15 } : State).sp.val < 16 ∧ ({ start 0 with sp := 16 } : State).sp.val = 16 := by decide

theorem test_witness_ReturnPopsIntoThePc :
    0 < ({ start 0 with sp := 1 } : State).sp.val ∧ 0 < ({ start 0 with sp := 16 } : State).sp.val ∧ (start 0).sp.val = 0 := by decide

theorem test_witness_CallThenReturnComesBack :
    ({ start 0 with sp := 15 } : State).sp.val < 16 ∧ ∃ t, exec (.call 0x300) { start 0 with sp := 15 } = .next t := ⟨by decide, _, rfl⟩

/-- V[x] = 15 and 16, and each policy above 15. -/
theorem test_witness_KeySkipsReadTheLevel :
    (let s : State := (start 0).setReg 3 0x0F
     (s.reg 3).toNat ≤ 15 ∧ false = s.key.getLsbD (s.reg 3).toNat) ∧
    (let s : State := { (start 0).setReg 3 0x10 with params := { Config.defaults with keyIndexPolicy := .mask }, key := 1 }
     (s.reg 3).toNat > 15 ∧ s.params.keyIndexPolicy = .mask ∧ true = s.key.getLsbD ((s.reg 3).toNat % 16)) ∧
    (let s : State := { (start 0).setReg 3 0x10 with params := { Config.defaults with keyIndexPolicy := .notPressed } }
     (s.reg 3).toNat > 15 ∧ s.params.keyIndexPolicy = .notPressed) ∧
    (let s : State := (start 0).setReg 3 0x10
     (s.reg 3).toNat > 15 ∧ s.params.keyIndexPolicy = .fault) := by decide

/-- The register of an arithmetic statement may be VF or not (AddSetsTheCarry, SubtractionsSetNoBorrow). -/
theorem test_witness_destination_not_vf : (0 : Reg) ≠ vf ∧ (0xE : Reg) ≠ vf ∧ (0xF : Reg) = vf := by decide

/-- Every setting that ShiftRight and ShiftLeft name. -/
theorem test_witness_shift_settings (o : ShiftVfOrder) (l : Bool) :
    ({ start 0 with params := { Config.defaults with shiftVfOrder := o, legacyParity := l } } : State).params.shiftVfOrder = o ∧
    ({ start 0 with params := { Config.defaults with shiftVfOrder := o, legacyParity := l } } : State).params.legacyParity = l :=
  ⟨rfl, rfl⟩

theorem test_witness_RandomIsTheMaskedDraw : (start 0).pendingOp = .iterate due := rfl

/-- The lowest and highest place for three bytes, the first failing place on either side, and the font under ALLOW. -/
theorem test_witness_BcdStoresThreeDigits :
    (start 0).mem.wf = true ∧
    ({ start 0 with i := 0x050 } : State).MayStore 3 ∧ ({ start 0 with i := 0xFFD } : State).MayStore 3 ∧
    ({ start 0 with i := 0x04E, params := { Config.defaults with fontWritePolicy := .allow } } : State).MayStore 3 ∧
    ((start 0).params.fontWritePolicy = .fault ∧ ({ start 0 with i := 0x04F } : State).i.toNat ≤ 0x04F) ∧
    ({ start 0 with i := 0xFFE } : State).i.toNat + 2 > 0xFFF := by
  unfold State.MayStore
  decide

theorem test_witness_StoreRegistersBlock :
    (start 0).mem.wf = true ∧
    ({ start 0 with i := 0x050 } : State).MayStore ((0xF : Reg).toNat + 1) ∧
    ({ start 0 with i := 0xFF0 } : State).MayStore ((0xF : Reg).toNat + 1) ∧
    ((start 0).params.fontWritePolicy = .fault ∧ ({ start 0 with i := 0x04F } : State).i.toNat ≤ 0x04F) ∧
    ({ start 0 with i := 0xFF1 } : State).i.toNat + (0xF : Reg).toNat > 0xFFF := by
  unfold State.MayStore
  decide

theorem test_witness_LoadRegistersBlock :
    ({ start 0 with i := 0xFF0 } : State).i.toNat + (0xF : Reg).toNat ≤ 0xFFF ∧
    ({ start 0 with i := 0xFF1 } : State).i.toNat + (0xF : Reg).toNat > 0xFFF := by decide

theorem test_witness_StoreIsSeenByTheNextFetch :
    let s : State := { start 0xF155 with i := 0x202 }
    s.mem.wf = true ∧ s.MayStore ((1 : Reg).toNat + 1) ∧ (∃ t, exec (.storeRegs 1) s = .next t) ∧
      (1 : Reg).toNat = (0 : Reg).toNat + 1 ∧ (1 : Reg).toNat ≤ (1 : Reg).toNat ∧ s.i.toNat + (0 : Reg).toNat = s.pc.toNat + 2 :=
  ⟨by decide, by unfold State.MayStore; decide, ⟨_, rfl⟩, by decide, by decide, by decide⟩

/-- No row above memory; the last row at 0xFFF; the last row at 0x1000; a covered pixel (the top left pixel of glyph 0). -/
theorem test_witness_DrawXorsTheSprite :
    (0 : Nibble) = 0 ∧ ({ start 0 with i := 0xFFF } : State).i.toNat + (1 : Nibble).toNat ≤ 0x1000 ∧
    ((2 : Nibble) ≠ 0 ∧ ({ start 0 with i := 0xFFF } : State).i.toNat + (2 : Nibble).toNat > 0x1000) ∧
    (start 0).Covers 0 0 1 0 0 :=
  ⟨by decide, by decide, by decide, 0, 0, by decide, by decide, by decide, by decide, by decide⟩

theorem test_witness_DrawingTwiceRestoresTheDisplay :
    (0 : Reg) ≠ vf ∧ (start 0).i.toNat + (5 : Nibble).toNat ≤ 0x1000 ∧ (∃ t, exec (.drw 0 0 5) (start 0) = .next t) ∧
    (∀ px py, (start 0).fb.pixel px py = false) ∧ (start 0).spriteBit 0 0 = true :=
  ⟨by decide, by decide, ⟨_, rfl⟩, by intro px py; show Display.pixel (Vector.replicate 32 0) px py = false; simp [Display.pixel], by decide⟩

/-- All 16 keys held while Fx0A runs; and, on an awaiting machine, the lowest and the highest key newly pressed. -/
theorem test_witness_KeyWaitEndsWithTheKey :
    (let ev : Ev := { due with keysIn := 0xFFFF }
     let s : State := startOn ev 0xF00A
     s.Iterates ev ∧ s.faulted = false ∧ (s.beforeStep ev).stepGate ev = true ∧ s.pc.toNat ≤ 0x0FFE ∧
       s.fetchWord = encode (.ldVxK 0)) ∧
    (let ev : Ev := { quiet with keysIn := 0xFFFF }
     let s : State := { startOn ev 0 with awaiting := true }
     s.Iterates ev ∧ s.faulted = false ∧ s.awaiting = true ∧ ev.execDue = false ∧ ev.stepReq = false ∧ s.Edge ev 0) ∧
    (let ev : Ev := { quiet with keysIn := 0xFFFF }
     let s : State := { startOn ev 0 with awaiting := true, prevKey := 0x7FFF }
     s.Iterates ev ∧ s.faulted = false ∧ s.awaiting = true ∧ s.Edge ev 15 ∧ ∀ j, j < 15 → ¬ s.Edge ev j) :=
  ⟨⟨⟨rfl, rfl⟩, by decide, by decide, by decide, by decide⟩, ⟨⟨rfl, rfl⟩, rfl, rfl, rfl, rfl, by unfold State.Edge; decide⟩,
    ⟨rfl, rfl⟩, rfl, rfl, by unfold State.Edge; decide, by unfold State.Edge; decide⟩

theorem test_witness_FaultsArePreciseAndOfTheirKind :
    ∃ t, exec (.ret 0) (start 0) = .next t ∧ (start 0).faulted = false ∧ t.faulted = true := ⟨_, rfl, rfl, rfl⟩

theorem test_witness_FaultingStepCommitsNothing :
    (start 0x00EE).Iterates due ∧ (start 0x00EE).faulted = false ∧ ((start 0x00EE).beforeStep due).stepGate due = true ∧
      ∃ t, step (start 0x00EE) = .next t ∧ t.faulted = true := ⟨start_iterates _ _, by decide, by decide, _, rfl, by decide⟩

theorem test_witness_OnlyFlagInstructionsWriteVf :
    ∃ t, exec (.addReg 1 2) (((start 0).setReg 1 0xC8).setReg 2 0x64) = .next t ∧
      t.reg vf ≠ (((start 0).setReg 1 0xC8).setReg 2 0x64).reg vf := ⟨_, rfl, by decide⟩

theorem test_witness_EachElementHasItsWriters :
    ∃ t, exec (.ldI 0x300) (start 0) = .next t ∧ t.i ≠ (start 0).i := ⟨_, rfl, by decide⟩

theorem test_witness_HiddenElementsAreNotRead :
    (∀ x, Instr.jp 0 ≠ .ldStVx x) ∧ (∀ x y n, Instr.jp 0 ≠ .drw x y n) ∧ ∀ nn, Instr.jp 0 ≠ .cls nn :=
  ⟨nofun, nofun, nofun⟩

theorem test_witness_FontRegionIsReadOnly :
    (start 0xF055).mem.wf = true ∧ (start 0xF055).params.fontWritePolicy = .fault ∧ (start 0xF055).pendingOp ≠ .reset ∧
      ∃ t, step (start 0xF055) = .next t := ⟨by decide, by decide, by decide, _, rfl⟩

/-- The reset state meets every invariant, and so does a state in which a return address is on the stack. -/
theorem test_witness_StepKeepsTheInvariant :
    let s : State := { start 0x00EE with sp := 1, stack := (Vector.replicate 16 0).set 0 0x202 }
    s.MemOk ∧ s.Inv ∧ ∃ t, step s = .next t :=
  ⟨⟨by decide, by decide⟩,
    ⟨⟨by decide, by decide⟩, by unfold State.SpBounded; decide, by unfold State.PcBounded; decide,
      by
        intro k h hk
        have h0 : k = 0 := by change k < 1 at hk; omega
        subst h0
        exact ⟨0x200, by omega, rfl⟩,
      by intro _; decide, by intro h; cases h⟩,
    _, rfl⟩

theorem test_witness_StepKeepsMemoryAndRecord :
    (start 0xF055).MemOk ∧ (start 0xF055).RecordOk ∧ ∃ t, step (start 0xF055) = .next t :=
  ⟨⟨by decide, by decide⟩, ⟨fun _ => rfl, fun _ => rfl⟩, _, rfl⟩

theorem test_witness_ReachableStatesMeetTheInvariant : Reachable (State.created Config.defaults [.load none, .reset]) := .created _ _

/-- A machine that jumps to itself, between two iterations. -/
def looping : State := { start 0x1200 with boot := .running, curInstr := 0x1200, host := [] }

/-- A machine that waits for a key with both timers at 0, between two iterations. -/
def waiting : State := { start 0 with boot := .running, awaiting := true, host := [] }

/-- B2: an iteration leaves the machine in its endless loop as it is. -/
theorem looping_stays : step (looping.give (.iterate due)) = .next looping := by
  have h : ∃ t, step (looping.give (.iterate due)) = .next t ∧ t = looping := ⟨_, rfl, by decide⟩
  obtain ⟨t, h, rfl⟩ := h
  exact h

/-- An iteration with a timer strobe leaves the waiting machine as it is. -/
theorem waiting_stays : step (waiting.give (.iterate { due with timerDue := true })) = .next waiting := by
  have h : ∃ t, step (waiting.give (.iterate { due with timerDue := true })) = .next t ∧ t = waiting := ⟨_, rfl, by decide⟩
  obtain ⟨t, h, rfl⟩ := h
  exact h

/-- An endless run on the record `due`, with a timer strobe besides for the machine that waits. -/
theorem test_witness_EveryStrobeSequenceRunsAndFairOnesProgress :
    (start 0).boot.mayIterate = true ∧
    (Run (fun _ => due) (fun _ => looping) ∧ FairExec (fun _ => due) ∧ NoToggleFrom (fun _ => due) 0 ∧
      looping.faulted = false ∧ looping.paused = false ∧ looping.awaiting = false) ∧
    (let ev : Ev := { due with timerDue := true }
     Run (fun _ => ev) (fun _ => waiting) ∧ FairTimer (fun _ => ev) ∧ NoToggleFrom (fun _ => ev) 0 ∧
      waiting.faulted = false ∧ waiting.paused = false ∧ waiting.awaiting = true ∧ ∀ k, k < 16 → ¬ waiting.Edge ev k) :=
  ⟨rfl, ⟨fun _ => looping_stays, fun n => ⟨n, Nat.le_refl n, rfl⟩, fun _ _ => rfl, rfl, rfl, rfl⟩,
    fun _ => waiting_stays, fun n => ⟨n, Nat.le_refl n, rfl⟩, fun _ _ => rfl, rfl, rfl, rfl, by unfold State.Edge; decide⟩

end Sys2Proof.Tests
end

section
/-! SUPPORT. The clock rate: every instruction commutes with the host's change of CYCLE_HZ (00_scope.md R15). The rate stands among the
parameters (log 4), so what reads a parameter or branches on the state has a lemma here; every other effect writes elements beside the
parameters from operands that do not hold the rate, and commutes by definition. -/

namespace Sys2Proof.Machine

section setCycleHz
variable (s : State) (hz : Nat)

/-! ## What the instructions read -/

@[simp] theorem State.reg_setCycleHz (x : Reg) : (s.setCycleHz hz).reg x = s.reg x := rfl

@[simp] theorem State.keyPressed_setCycleHz (v : Byte) : (s.setCycleHz hz).keyPressed v = s.keyPressed v := rfl

@[simp] theorem State.readFault_setCycleHz (n : Nat) : (s.setCycleHz hz).readFault n = s.readFault n := rfl

@[simp] theorem State.writeFault_setCycleHz (n : Nat) : (s.setCycleHz hz).writeFault n = s.writeFault n := rfl

@[simp] theorem State.loadedRegs_setCycleHz (x : Reg) : (s.setCycleHz hz).loadedRegs x = s.loadedRegs x := rfl

/-! ## The operations that branch -/

/-- A shift reads SHIFT_VF_ORDER of the parameters, and not the rate beside it. -/
theorem State.shiftReg_setCycleHz (x : Reg) (out : Byte → Bool) (value : Byte → Byte) :
    (s.setCycleHz hz).shiftReg x out value = (s.shiftReg x out value).setCycleHz hz := by
  by_cases h : x = vf
  · simp only [State.shiftReg, if_pos h]; rfl
  · simp only [State.shiftReg, if_neg h]; rfl

/-- Fault or effect: both commute with the change of the rate, if the effect does. -/
theorem State.orRaise_setCycleHz (failing : Option (FaultCause × Nat)) {effect effect' : State}
    (h : effect' = effect.setCycleHz hz) :
    (s.setCycleHz hz).orRaise failing effect' = (s.orRaise failing effect).setCycleHz hz := by
  cases failing with
  | none => exact h
  | some f => rfl

theorem execRet_setCycleHz (nn : Byte) : execRet nn (s.setCycleHz hz) = mapNext (·.setCycleHz hz) (execRet nn s) := by
  rcases Nat.eq_zero_or_pos s.sp.val with h | h
  · rw [execRet, execRet, State.pop_empty s h, State.pop_empty (s.setCycleHz hz) h]; rfl
  · rw [execRet, execRet, State.pop_of_pos s h, State.pop_of_pos (s.setCycleHz hz) h]; rfl

theorem execCall_setCycleHz (a : Addr) : execCall a (s.setCycleHz hz) = mapNext (·.setCycleHz hz) (execCall a s) := by
  rcases Nat.lt_or_eq_of_le (Nat.le_of_lt_succ s.sp.isLt) with h | h
  · rw [execCall, execCall, State.push_of_lt s _ h, State.push_of_lt (s.setCycleHz hz) _ h]; rfl
  · rw [execCall, execCall, State.push_full s _ h, State.push_full (s.setCycleHz hz) _ h]; rfl

end setCycleHz

/-! ## Every instruction, and the step -/

/-- No instruction reads the rate or writes it. -/
theorem exec_setCycleHz (i : Instr) (s : State) (hz : Nat) :
    exec i (s.setCycleHz hz) = mapNext (·.setCycleHz hz) (exec i s) := by
  cases i with
  | ret nn => exact execRet_setCycleHz s hz nn
  | call a => exact execCall_setCycleHz s hz a
  | skp x | sknp x =>
    simp only [exec, execSkp, execSknp, State.keyPressed_setCycleHz, State.reg_setCycleHz]
    cases s.keyPressed (s.reg x) with
    | none => rfl
    | some held => rfl
  | shr | shl => simp only [exec, execShr, execShl, State.shiftReg_setCycleHz]; rfl
  | drw | ldB | storeRegs | loadRegs =>
    simp only [exec, execDrw, execLdB, execStoreRegs, execLoadRegs, State.readFault_setCycleHz, State.writeFault_setCycleHz,
      State.loadedRegs_setCycleHz]
    exact congrArg Host.Outcome.next (s.orRaise_setCycleHz hz _ rfl)
  | cls | jp | jpV0 | seImm | sneImm | seReg | sneReg | ldImm | addImm | ldReg | orReg | andReg | xorReg | addReg | subReg | subnReg
  | rnd | ldI | addI | ldF | ldVxDt | ldVxK | ldDtVx | ldStVx | unhandled => rfl

theorem step_of_setCycleHz {s : State} {hz : Nat} (h : s.pendingOp = .setCycleHz hz) :
    step s = .next (s.setCycleHz hz).consumeOp := by
  unfold step
  rw [h]
  rfl

/-- Settles O23: the move is `setCycleHz` and the end of the move, and `exec` commutes with it instruction by instruction. -/
theorem cycleRateTouchesNoState : Obligations.CycleRateTouchesNoState :=
  ⟨fun _ _ h => step_of_setCycleHz h, exec_setCycleHz⟩

end Sys2Proof.Machine
end

section
/-! SUPPORT. What an instruction can do, said once: either the fault record is written, or the instruction's effect is made. The writers of
each element of the state follow from it. -/

namespace Sys2Proof.Machine

/-- A store of bytes at an address, inside memory and, where FONT_WRITE_POLICY is FAULT, above the font region (20_memory.md R55, R57;
70_reset_and_hazards.md R255): the memory `m` after it. -/
def State.Stores (s : State) (m : Memory) : Prop :=
  ∃ (a : Nat) (bytes : List Byte), a + bytes.length ≤ 0x1000 ∧ (s.params.fontWritePolicy = .fault → 0x04F < a) ∧
    m = s.mem.writeBytes a bytes

/-- What an instruction leaves when it raises no fault: the elements it writes, every other element as before. PC, the stack and a store
are given with their bounds; where a written value is a matter of the instruction's own statement, it is any value. -/
def Effect (i : Instr) (s t : State) : Prop :=
  match i with
  | .jp a => t = { s with pc := a.setWidth 16 }
  | .jpV0 a => t = { s with pc := (s.reg 0).setWidth 16 + a.setWidth 16 }
  | .call a => ∃ h : s.sp.val < 16,
      t = { s with stack := s.stack.set s.sp.val (s.pc + 2), sp := ⟨s.sp.val + 1, by omega⟩, pc := a.setWidth 16 }
  | .ret _ => ∃ _ : 0 < s.sp.val, t = { s with sp := ⟨s.sp.val - 1, by omega⟩, pc := s.stack[s.sp.val - 1] }
  | .seImm _ _ | .sneImm _ _ | .seReg _ _ _ | .sneReg _ _ _ | .skp _ | .sknp _ => ∃ c, t = s.skipIf c
  | .ldImm x _ | .addImm x _ | .ldReg x _ | .orReg x _ | .andReg x _ | .xorReg x _ | .rnd x _ | .ldVxDt x =>
    ∃ b, t = (s.setReg x b).advance
  | .addReg _ _ | .subReg _ _ | .subnReg _ _ | .shr _ _ | .shl _ _ => ∃ v, t = { s.advance with v := v }
  | .loadRegs x => t = { s.advance with v := s.loadedRegs x }
  | .cls _ => ∃ fb, t = { s.advance with fb := fb }
  | .drw _ _ _ => ∃ c fb, t = { s.advance.setReg vf (flagByte c) with fb := fb }
  | .ldI _ | .addI _ | .ldF _ => ∃ a, t = { s.advance with i := a }
  | .ldB _ | .storeRegs _ => ∃ m, s.Stores m ∧ t = { s.advance with mem := m }
  | .ldDtVx x => t = { s.advance with dt := (s.reg x).setWidth 16 }
  | .ldStVx x => t = { s.advance with st := (s.reg x).setWidth 16 }
  | .ldVxK x => t = { s.advance with awaiting := true, waitReg := x }
  | .unhandled w => t = { s.advance with diag := s.diag ++ [.unhandled s.pc w] }

/-- An instruction that checks a range first: the fault is raised, or the effect is made. -/
theorem State.orRaise_cases (s : State) (failing : Option (FaultCause × Nat)) (effect : State) :
    (∃ c a, s.orRaise failing effect = s.raise c a) ∨ failing = none ∧ s.orRaise failing effect = effect := by
  cases failing with
  | none => exact .inr ⟨rfl, rfl⟩
  | some f => exact .inl ⟨f.1, f.2, rfl⟩

/-- A write of `n` bytes at I that no check fails is one that may be made. -/
theorem State.mayStore_of_writeFault {s : State} {n : Nat} (hpos : 0 < n) (h : s.writeFault n = none) : s.MayStore n := by
  rw [State.writeFault_eq s hpos] at h
  split at h
  · cases h
  · rename_i hfont
    split at h
    · rename_i hrange
      exact ⟨hrange, fun hp => Nat.lt_of_not_le fun hle => hfont ⟨hp, hle⟩⟩
    · cases h

/-- A store instruction: its checks, then its bytes. -/
theorem State.orRaise_store (s : State) {n : Nat} {bytes : List Byte} (hlen : bytes.length = n) (hpos : 0 < n) :
    (∃ c a, s.orRaise (s.writeFault n) { s.advance with mem := s.mem.writeBytes (s.effAddr 0) bytes } = s.raise c a) ∨
    ∃ m, s.Stores m ∧
      s.orRaise (s.writeFault n) { s.advance with mem := s.mem.writeBytes (s.effAddr 0) bytes } = { s.advance with mem := m } := by
  subst hlen
  refine (s.orRaise_cases _ _).imp_right fun ⟨hn, h⟩ => ?_
  obtain ⟨hrange, habove⟩ := State.mayStore_of_writeFault hpos hn
  exact ⟨_, ⟨s.effAddr 0, bytes, hrange, habove, rfl⟩, h⟩

/-- What an instruction can do: it raises a fault, or makes its effect. -/
theorem exec_cases {i : Instr} {s t : State} (h : exec i s = .next t) : (∃ c a, t = s.raise c a) ∨ Effect i s t := by
  cases i with
  | jp | jpV0 | ldDtVx | ldStVx | ldVxK | unhandled => cases h; exact .inr rfl
  | seImm | sneImm | seReg | sneReg => cases h; exact .inr ⟨_, rfl⟩
  | ldImm | addImm | ldReg | orReg | andReg | xorReg | rnd | ldVxDt => cases h; exact .inr ⟨_, rfl⟩
  | addReg | subReg | subnReg => cases h; exact .inr ⟨_, rfl⟩
  | shr | shl => cases h; exact .inr ⟨_, by rw [State.shiftReg_eq]; rfl⟩
  | cls | ldI | addI | ldF => cases h; exact .inr ⟨_, rfl⟩
  | call a =>
    rcases Nat.lt_or_eq_of_le (Nat.le_of_lt_succ s.sp.isLt) with hsp | hsp
    · rw [exec, execCall, State.push_of_lt s _ hsp] at h
      cases h; exact .inr ⟨hsp, rfl⟩
    · rw [exec, execCall, State.push_full s _ hsp] at h
      cases h; exact .inl ⟨_, _, rfl⟩
  | ret nn =>
    rcases Nat.eq_zero_or_pos s.sp.val with hsp | hsp
    · rw [exec, execRet, State.pop_empty s hsp] at h
      cases h; exact .inl ⟨_, _, rfl⟩
    · rw [exec, execRet, State.pop_of_pos s hsp] at h
      cases h; exact .inr ⟨hsp, rfl⟩
  | skp x | sknp x =>
    simp only [exec, execSkp, execSknp] at h
    cases hk : s.keyPressed (s.reg x) with
    | none => rw [hk] at h; cases h; exact .inl ⟨_, _, rfl⟩
    | some held => rw [hk] at h; cases h; exact .inr ⟨_, rfl⟩
  | drw x y n =>
    cases h
    exact (s.orRaise_cases _ _).imp_right fun h => ⟨_, _, h.2⟩
  | loadRegs x =>
    cases h
    exact (s.orRaise_cases _ _).imp_right fun h => h.2
  | ldB x => cases h; exact s.orRaise_store (length_bcdDigits _) (by omega)
  | storeRegs x => cases h; exact s.orRaise_store (s.length_regBlock x) (by omega)

/-! ## The writers of each element -/

/-- Settles O52: a fault writes the record alone, and each effect names the elements it writes. -/
theorem eachElementHasItsWriters : Obligations.EachElementHasItsWriters := by
  intro i s t h
  rcases exec_cases h with ⟨c, a, rfl⟩ | h
  · simp [State.raise_eq]
  · cases i with
    | jp | jpV0 | loadRegs | ldDtVx | ldStVx | ldVxK | unhandled => obtain rfl := h; simp
    | call | ret => obtain ⟨_, rfl⟩ := h; simp
    | seImm | sneImm | seReg | sneReg | skp | sknp => obtain ⟨c, rfl⟩ := h; simp [State.skipIf_eq]
    | ldImm | addImm | ldReg | orReg | andReg | xorReg | rnd | ldVxDt | addReg | subReg | subnReg | shr | shl | cls | ldI | addI | ldF =>
      obtain ⟨_, rfl⟩ := h; simp
    | drw => obtain ⟨_, _, rfl⟩ := h; simp
    | ldB | storeRegs => obtain ⟨m, _, rfl⟩ := h; simp

/-- Settles O51: an effect that writes one general register writes the destination, and an effect that writes none leaves VF. -/
theorem onlyFlagInstructionsWriteVf : Obligations.OnlyFlagInstructionsWriteVf := by
  intro i s t h hne
  rcases exec_cases h with ⟨c, a, rfl⟩ | h
  · exact absurd rfl hne
  · cases i with
    | addReg | subReg | subnReg | shr | shl | drw => trivial
    | ldImm x | addImm x | ldReg x | orReg x | andReg x | xorReg x | rnd x | ldVxDt x =>
      obtain ⟨b, rfl⟩ := h
      by_contra hx
      exact hne (s.reg_setReg_ne b (Ne.symm hx))
    | loadRegs x =>
      obtain rfl := h
      by_contra hx
      have hlt : ¬ vf.toNat ≤ x.toNat := fun hle => hx (by unfold vf at *; bv_omega)
      exact hne ((s.loadedRegs_getElem x vf).trans (if_neg hlt))
    | jp | jpV0 | ldDtVx | ldStVx | ldVxK | unhandled => obtain rfl := h; exact hne rfl
    | call | ret | seImm | sneImm | seReg | sneReg | skp | sknp | cls | ldI | addI | ldF => obtain ⟨_, rfl⟩ := h; exact hne rfl
    | ldB | storeRegs => obtain ⟨_, _, rfl⟩ := h; exact hne rfl

end Sys2Proof.Machine
end

section
/-! SUPPORT. What the host's move and the phases of an iteration can do, case by case, and the iteration of a paused machine. -/

namespace Sys2Proof.Machine

/-! ## Outcomes -/

theorem next_of_mapNext {f : State → State} {o : Host.Outcome State Fault Refusal} {t : State} (h : mapNext f o = .next t) :
    ∃ u, o = .next u ∧ t = f u := by
  cases o with
  | next u => cases h; exact ⟨u, rfl, rfl⟩
  | fault e | refused r => cases h

/-! ## The phases before and after the executor -/

/-- The phases before the executor sample the keys and toggle the pause, and a key wait that resolves writes V[wait_reg] and ends. -/
theorem State.beforeStep_cases (s : State) (ev : Ev) :
    s.beforeStep ev = { s with key := ev.keysIn, paused := s.pausedNow ev } ∨
    s.awaiting = true ∧
      ∃ b, s.beforeStep ev = { s.setReg s.waitReg b with key := ev.keysIn, paused := s.pausedNow ev, awaiting := false } := by
  rw [State.beforeStep, State.resolveKeyWait]
  split
  · split
    · exact .inr ⟨‹_›, _, rfl⟩
    · exact .inl rfl
  · exact .inl rfl

/-- The elements that the phases before the executor may write. -/
theorem State.beforeStep_eq (s : State) (ev : Ev) :
    s.beforeStep ev =
      { s with
        key := ev.keysIn, paused := s.pausedNow ev, v := (s.beforeStep ev).v, awaiting := (s.beforeStep ev).awaiting } := by
  rcases s.beforeStep_cases ev with h | ⟨-, b, h⟩
  · rw [h]
  · rw [h]; rfl

section beforeStep
variable (s : State) (ev : Ev)
@[simp] theorem State.beforeStep_key : (s.beforeStep ev).key = ev.keysIn := by rw [State.beforeStep_eq]
@[simp] theorem State.beforeStep_paused : (s.beforeStep ev).paused = s.pausedNow ev := by rw [State.beforeStep_eq]
@[simp] theorem State.beforeStep_mem : (s.beforeStep ev).mem = s.mem := by rw [State.beforeStep_eq]
@[simp] theorem State.beforeStep_faulted : (s.beforeStep ev).faulted = s.faulted := by rw [State.beforeStep_eq]
end beforeStep

/-- A paused machine ends its iteration without a tick. -/
theorem State.afterStep_of_paused {s : State} (ev : Ev) (h : s.paused = true) :
    s.afterStep ev = { s with prevKey := s.key, boot := .running } := by
  rw [State.afterStep_eq]
  simp [State.timerGate, h]

/-! ## The executor, the iteration and the step -/

/-- What the executor can do: the fetch faults, or the instruction at PC is executed on the state with its word recorded. -/
theorem executorStep_cases {s t : State} (h : executorStep s = .next t) :
    (∃ a, t = s.enterFaulted .fetchRange s.pc 0x0000 a) ∨
    s.pc.toNat ≤ 0x0FFE ∧
      exec (decode s.params.zeroGroupDecode s.fetchWord) { s with curInstr := s.fetchWord } = .next t := by
  by_cases hp : s.pc.toNat ≤ 0x0FFE
  · rw [executorStep_fetch hp] at h
    exact .inr ⟨hp, h⟩
  · rw [executorStep_above (by omega)] at h
    cases h
    exact .inl ⟨_, rfl⟩

/-- What an iteration can do: the key sample alone in FAULTED; else the phases before the executor, the executor where its gate is open,
and the phases after it. -/
theorem iterate_cases {s t : State} {ev : Ev} (h : iterate ev s = .next t) :
    s.faulted = true ∧ t = (s.sampleKeys ev).endIteration ∨
    s.faulted = false ∧ ((s.beforeStep ev).stepGate ev = false ∧ t = (s.beforeStep ev).afterStep ev ∨
      (s.beforeStep ev).stepGate ev = true ∧ ∃ u, executorStep (s.beforeStep ev) = .next u ∧ t = u.afterStep ev) := by
  cases hf : s.faulted with
  | true => rw [iterate_faulted hf] at h; cases h; exact .inl ⟨rfl, rfl⟩
  | false =>
    refine .inr ⟨rfl, ?_⟩
    cases hg : (s.beforeStep ev).stepGate ev with
    | false => rw [iterate_skips hf hg] at h; cases h; exact .inl ⟨rfl, rfl⟩
    | true => rw [iterate_executes hf hg] at h; exact .inr ⟨rfl, next_of_mapNext h⟩

/-- What a step can do: one move of the host, where the boot order allows it, which is then taken off the list. -/
theorem step_cases {s t : State} (h : step s = .next t) :
    ∃ u, t = u.consumeOp ∧
      ((∃ ev, s.Iterates ev ∧ iterate ev s = .next u) ∨ (s.pendingOp = .reset ∧ u = s.doReset) ∨
        (∃ file, s.pendingOp = .load file ∧ s.boot.mayLoad = true ∧ u = s.doLoad file) ∨
        ∃ hz, s.pendingOp = .setCycleHz hz ∧ u = s.setCycleHz hz) := by
  obtain ⟨u, hu, rfl⟩ := next_of_mapNext h
  refine ⟨u, rfl, ?_⟩
  unfold State.Iterates
  cases hop : s.pendingOp with
  | iterate ev =>
    rw [hop, runOp] at hu
    cases hb : s.boot with
    | fresh | failed => rw [hb] at hu; cases hu
    | loaded | running => rw [hb] at hu; exact .inl ⟨ev, ⟨rfl, rfl⟩, hu⟩
  | reset => rw [hop] at hu; cases hu; exact .inr (.inl ⟨rfl, rfl⟩)
  | load file =>
    rw [hop, runOp] at hu
    split at hu
    · cases hu; exact .inr (.inr (.inl ⟨file, rfl, ‹_›, rfl⟩))
    · cases hu
  | setCycleHz hz => rw [hop] at hu; cases hu; exact .inr (.inr (.inr ⟨hz, rfl, rfl⟩))

/-! ## A paused iteration (10_state.md R36) -/

/-- On a machine that is paused after the toggle the executor's gate is closed and the timers do not tick. -/
theorem step_of_paused {s : State} {ev : Ev} (hit : s.Iterates ev) (hf : s.faulted = false) (hp : s.pausedNow ev = true) :
    step s = .next (State.consumeOp { s.beforeStep ev with prevKey := ev.keysIn, boot := .running }) := by
  have hgate : (s.beforeStep ev).stepGate ev = false := by simp [State.stepGate, hp]
  rw [step_of_iterate hit.1 hit.2, iterate_skips hf hgate, mapNext_next,
    State.afterStep_of_paused ev (by rw [State.beforeStep_paused, hp])]
  simp only [State.beforeStep_key]

/-- Settles O16: the executor and the timers stand still, so what is left is what the phases before the executor write. -/
theorem pauseStopsExecutorAndTimers : Obligations.PauseStopsExecutorAndTimers := by
  intro s ev hit hf hp
  refine ⟨_, step_of_paused hit hf hp, ?_, ?_, ?_⟩
  · simp only [State.consumeOp_v, State.consumeOp_awaiting]
    conv_lhs => rw [State.beforeStep_eq, hp]
  · intro r hr
    rw [State.consumeOp_reg]
    rcases s.beforeStep_cases ev with h | ⟨-, b, h⟩
    · rw [h]; rfl
    · rw [h]; exact s.reg_setReg_ne b hr
  · intro ha
    rcases s.beforeStep_cases ev with h | ⟨h, -⟩
    · rw [h, State.consumeOp_v, State.consumeOp_awaiting]; exact ⟨rfl, ha⟩
    · rw [ha] at h; cases h

end Sys2Proof.Machine
end

section
/-! SUPPORT. The display as an output list, and the elements that instructions do not read: PrevKey, ST and the display replaced. -/

namespace Sys2Proof.Machine

/-! ## The display output (44_display.md R190) -/

theorem column_of_element (x : Fin 64) (y : Fin 32) : Fin.ofNat 64 (y.val * 64 + x.val) = x :=
  Fin.ext (by simp only [Fin.val_ofNat]; omega)

theorem row_of_element (x : Fin 64) (y : Fin 32) : Fin.ofNat 32 ((y.val * 64 + x.val) / 64) = y :=
  Fin.ext (by simp only [Fin.val_ofNat]; omega)

/-- The 32 rows of 64 pixels as one list: element k is the pixel at column k mod 64 of row k / 64. -/
theorem State.fbOut_eq_ofFn (s : State) :
    s.fbOut = List.ofFn fun k : Fin (32 * 64) => s.fb.pixel (Fin.ofNat 64 k.val) (Fin.ofNat 32 (k.val / 64)) := by
  simp only [List.ofFn_mul, column_of_element, row_of_element, List.ofFn_eq_map]
  rfl

/-- Settles O45: the rows as one list, read at 64y + x. -/
theorem displayOutputIsRowMajor : Obligations.DisplayOutputIsRowMajor := by
  intro s
  rw [State.fbOut_eq_ofFn]
  refine ⟨List.length_ofFn, fun x y => ?_⟩
  rw [List.getElem?_ofFn, dif_pos (show y.val * 64 + x.val < 32 * 64 by omega), column_of_element, row_of_element]

/-! ## Hidden elements (10_state.md R32, R34, R35) -/

/-- PrevKey, ST and the display replaced, each where a value is given. -/
def State.replaceHidden (s : State) (pk : Option (BitVec 16)) (v : Option Word) (f : Option Display) : State :=
  { s with prevKey := pk.getD s.prevKey, st := v.getD s.st, fb := f.getD s.fb }

section replaceHidden
variable (s : State) (pk : Option (BitVec 16)) (v : Option Word) (f : Option Display)

@[simp] theorem State.replaceHidden_reg (x : Reg) : (s.replaceHidden pk v f).reg x = s.reg x := rfl

@[simp] theorem State.replaceHidden_keyPressed (b : Byte) : (s.replaceHidden pk v f).keyPressed b = s.keyPressed b := rfl

theorem State.replaceHidden_shiftReg (x : Reg) (out : Byte → Bool) (value : Byte → Byte) :
    (s.replaceHidden pk v f).shiftReg x out value = (s.shiftReg x out value).replaceHidden pk v f := by
  by_cases h : x = vf
  · simp only [State.shiftReg, if_pos h]; rfl
  · simp only [State.shiftReg, if_neg h]; rfl

/-- Fault or effect: both commute with the replacement, if the effect does. -/
theorem State.replaceHidden_orRaise (failing : Option (FaultCause × Nat)) {effect effect' : State}
    (h : effect' = effect.replaceHidden pk v f) :
    (s.replaceHidden pk v f).orRaise failing effect' = (s.orRaise failing effect).replaceHidden pk v f := by
  cases failing with
  | none => exact h
  | some _ => rfl

theorem execRet_replaceHidden (nn : Byte) :
    execRet nn (s.replaceHidden pk v f) = mapNext (·.replaceHidden pk v f) (execRet nn s) := by
  rcases Nat.eq_zero_or_pos s.sp.val with h | h
  · rw [execRet, execRet, State.pop_empty s h, State.pop_empty (s.replaceHidden pk v f) h]; rfl
  · rw [execRet, execRet, State.pop_of_pos s h, State.pop_of_pos (s.replaceHidden pk v f) h]; rfl

theorem execCall_replaceHidden (a : Addr) :
    execCall a (s.replaceHidden pk v f) = mapNext (·.replaceHidden pk v f) (execCall a s) := by
  rcases Nat.lt_or_eq_of_le (Nat.le_of_lt_succ s.sp.isLt) with h | h
  · rw [execCall, execCall, State.push_of_lt s _ h, State.push_of_lt (s.replaceHidden pk v f) _ h]; rfl
  · rw [execCall, execCall, State.push_full s _ h, State.push_full (s.replaceHidden pk v f) _ h]; rfl

end replaceHidden

/-- No instruction reads PrevKey or ST, and none but DRW reads the display: an instruction that does not write a replaced element either
commutes with the replacement. -/
theorem exec_replaceHidden (i : Instr) (s : State) (pk : Option (BitVec 16)) (v : Option Word) (f : Option Display)
    (hst : v = none ∨ ∀ x, i ≠ .ldStVx x) (hfb : f = none ∨ (∀ x y n, i ≠ .drw x y n) ∧ ∀ nn, i ≠ .cls nn) :
    exec i (s.replaceHidden pk v f) = mapNext (·.replaceHidden pk v f) (exec i s) := by
  cases i with
  | ret nn => exact execRet_replaceHidden s pk v f nn
  | call a => exact execCall_replaceHidden s pk v f a
  | skp x | sknp x =>
    simp only [exec, execSkp, execSknp, State.replaceHidden_keyPressed, State.replaceHidden_reg]
    cases s.keyPressed (s.reg x) with
    | none => rfl
    | some held => rfl
  | shr | shl => simp only [exec, execShr, execShl, State.replaceHidden_shiftReg]; rfl
  | ldB | storeRegs | loadRegs =>
    exact congrArg Host.Outcome.next (s.replaceHidden_orRaise pk v f _ rfl)
  | drw x y n =>
    obtain rfl : f = none := hfb.resolve_right fun h => h.1 x y n rfl
    exact congrArg Host.Outcome.next (s.replaceHidden_orRaise pk v none _ rfl)
  | cls nn =>
    obtain rfl : f = none := hfb.resolve_right fun h => h.2 nn rfl
    rfl
  | ldStVx x =>
    obtain rfl : v = none := hst.resolve_right fun h => h x rfl
    rfl
  | jp | jpV0 | seImm | sneImm | seReg | sneReg | ldImm | addImm | ldReg | orReg | andReg | xorReg | addReg | subReg | subnReg
  | rnd | ldI | addI | ldF | ldVxDt | ldVxK | ldDtVx | unhandled => rfl

/-- Settles O53: each replacement alone commutes with an instruction that does not write the element, and is overwritten by one that
does. -/
theorem hiddenElementsAreNotRead : Obligations.HiddenElementsAreNotRead := by
  intro i s pk v f
  refine ⟨?_, fun h => ?_, ?_, fun hdrw hcls => ?_, ?_⟩
  · exact exec_replaceHidden i s (some pk) none none (.inl rfl) (.inl rfl)
  · exact exec_replaceHidden i s none (some v) none (.inr h) (.inl rfl)
  · rintro x rfl; rfl
  · exact exec_replaceHidden i s none none (some f) (.inl rfl) (.inr ⟨hdrw, hcls⟩)
  · rintro nn rfl; rfl

end Sys2Proof.Machine
end

section
/-! SUPPORT. The six invariants of 10_state.md R42: they hold after Reset, and every instruction, every phase of an iteration and every
move of the host keeps them, on memory in its canonical form; so they hold in every state of every run. -/

namespace Sys2Proof.Machine

/-! ## After creation and after Reset -/

/-- The reset values meet the invariants, under any parameters whose font the memory holds. -/
theorem State.inv_reset_with {m : Memory} {p : Params} (hfont : ∀ (k : Nat) (h : k < 80), m.read k = p.fontGlyphs[k])
    (host : List HostOp) (draws : Nat) (diag : List DiagEvent) :
    ({ State.reset with mem := m, params := p, host := host, draws := draws, diag := diag } : State).Inv where
  timers := ⟨Nat.zero_le _, Nat.zero_le _⟩
  sp := Nat.zero_le _
  pc := show (0x0200 : Word).toNat ≤ 0x10FE by decide
  stack := fun _ _ hk => absurd hk (Nat.not_lt_zero _)
  font := fun _ => hfont
  wait := nofun

theorem Memory.font_afterReset (g : Vector Byte 80) (k : Nat) (h : k < 80) : (Memory.afterReset g).read k = g[k] := by
  rw [Memory.read_afterReset, dif_pos h]

theorem Memory.font_unlisted (k : Nat) (h : k < 80) : Memory.read [] k = Config.defaults.fontGlyphs[k] := by
  simp only [Memory.read_nil, Memory.unlisted, Config.fontSize, Config.defaults, Vector.getElem_ofFn]
  exact if_pos h

theorem State.inv_doReset (s : State) : s.doReset.Inv :=
  State.inv_reset_with (Memory.font_afterReset _) _ _ _

theorem State.inv_created (p : Params) (ops : List HostOp) : (State.created p ops).Inv :=
  State.inv_reset_with (Memory.font_afterReset _) _ _ _

theorem State.memOk_doReset (s : State) : s.doReset.MemOk := ⟨Memory.wf_afterReset _, Memory.inRange_afterReset _⟩

theorem State.memOk_created (p : Params) (ops : List HostOp) : (State.created p ops).MemOk :=
  ⟨Memory.wf_afterReset _, Memory.inRange_afterReset _⟩

/-- Settles O56: the reset values, and a memory that holds the font. -/
theorem resetMeetsTheInvariant : Obligations.ResetMeetsTheInvariant :=
  have hrecord : FaultCause.none = .none ↔ false = false := iff_of_true rfl rfl
  ⟨State.inv_reset_with Memory.font_unlisted _ _ _, ⟨rfl, rfl⟩, hrecord,
    fun p ops => ⟨State.inv_created p ops, State.memOk_created p ops, hrecord⟩,
    fun s => ⟨s.inv_doReset, s.memOk_doReset, hrecord⟩⟩

/-! ## What one update does to the invariants -/

/-- The invariants do not speak of the other elements. -/
theorem State.Inv.of_frame {s t : State} (h : s.Inv)
    (ht : t = { s with
      v := t.v, i := t.i, fb := t.fb, key := t.key, prevKey := t.prevKey, paused := t.paused, waitReg := t.waitReg,
      curInstr := t.curInstr, boot := t.boot, host := t.host, draws := t.draws, diag := t.diag }) : t.Inv := by
  rw [ht]
  exact ⟨h.timers, h.sp, h.pc, h.stack, h.font, h.wait⟩

theorem State.Inv.consumeOp {s : State} (h : s.Inv) : s.consumeOp.Inv :=
  h.of_frame (by rw [State.consumeOp_eq])

theorem State.Inv.setCycleHz {s : State} (h : s.Inv) (hz : Nat) : (s.setCycleHz hz).Inv :=
  ⟨h.timers, h.sp, h.pc, h.stack, h.font, h.wait⟩

theorem State.Inv.setPc {s : State} (h : s.Inv) {p : Word} (hp : p.toNat ≤ 0x10FE) : ({ s with pc := p } : State).Inv :=
  ⟨h.timers, h.sp, hp, h.stack, h.font, h.wait⟩

theorem State.Inv.setTimers {s : State} (h : s.Inv) {dt st : Word} (hdt : dt.toNat ≤ 255) (hst : st.toNat ≤ 255) :
    ({ s with dt := dt, st := st } : State).Inv :=
  ⟨⟨hdt, hst⟩, h.sp, h.pc, h.stack, h.font, h.wait⟩

/-- A fault may be entered by a machine that does not wait for a key. -/
theorem State.Inv.enterFaulted {s : State} (h : s.Inv) (hw : s.awaiting = false) (c : FaultCause) (p w : Word) (a : Nat) :
    (s.enterFaulted c p w a).Inv :=
  ⟨h.timers, h.sp, h.pc, h.stack, h.font, fun ha => absurd (hw.symm.trans ha) Bool.false_ne_true⟩

/-- A store outside the font region leaves the font, and one inside it is allowed under ALLOW alone. -/
theorem State.Inv.store {s : State} (h : s.Inv) (hwf : s.mem.wf = true) {m : Memory} (hm : s.Stores m) :
    ({ s with mem := m } : State).Inv := by
  obtain ⟨a, bytes, -, habove, rfl⟩ := hm
  refine ⟨h.timers, h.sp, h.pc, h.stack, fun hp k hk => ?_, h.wait⟩
  have := habove hp
  exact (Memory.read_writeBytes hwf a bytes k).trans ((if_neg (by omega)).trans (h.font hp k hk))

/-- A push of the address after an instruction that was fetched. -/
theorem State.Inv.push {s : State} (h : s.Inv) (hp : s.pc.toNat ≤ 0x0FFE) (hsp : s.sp.val < 16) :
    ({ s with stack := s.stack.set s.sp.val (s.pc + 2), sp := ⟨s.sp.val + 1, by omega⟩ } : State).Inv := by
  refine ⟨h.timers, Nat.succ_le_of_lt hsp, h.pc, fun k hk hlt => ?_, h.font, h.wait⟩
  by_cases hks : s.sp.val = k
  · subst hks
    exact ⟨s.pc.toNat, hp, by simp only [Vector.getElem_set_self]; bv_omega⟩
  · obtain ⟨p, hp, hval⟩ := h.stack k hk (by change k < s.sp.val + 1 at hlt; omega)
    exact ⟨p, hp, by simp only [Vector.getElem_set_ne _ _ hks]; exact hval⟩

/-- A pop goes to the address after an instruction that was fetched. -/
theorem State.Inv.pop {s : State} (h : s.Inv) (hsp : 0 < s.sp.val) :
    ({ s with sp := ⟨s.sp.val - 1, by omega⟩, pc := s.stack[s.sp.val - 1] } : State).Inv := by
  obtain ⟨p, hp, hval⟩ := h.stack (s.sp.val - 1) (by omega) (by omega)
  refine ⟨h.timers, (Nat.sub_le _ _).trans h.sp, ?_, fun k hk hlt => h.stack k hk (by change k < s.sp.val - 1 at hlt; omega),
    h.font, h.wait⟩
  change (s.stack[s.sp.val - 1]).toNat ≤ 0x10FE
  omega

/-! ## Every instruction -/

/-- A skip of a fetched instruction stays inside the bound of PC. -/
theorem State.Inv.skipIf {s : State} (h : s.Inv) (hp : s.pc.toNat ≤ 0x0FFE) (c : Bool) : (s.skipIf c).Inv := by
  refine h.setPc ?_
  cases c with
  | false => change (s.pc + 2).toNat ≤ _; bv_omega
  | true => change (s.pc + 4).toNat ≤ _; bv_omega

theorem State.Inv.advance {s : State} (h : s.Inv) (hp : s.pc.toNat ≤ 0x0FFE) : s.advance.Inv := h.skipIf hp false

theorem byte_timer_le (b : Byte) : (b.setWidth 16 : Word).toNat ≤ 255 := by
  bv_omega

/-- The effect of an instruction that was fetched from memory on a running machine keeps the invariants. -/
theorem State.Inv.effect {i : Instr} {s t : State} (h : s.Inv) (hwf : s.mem.wf = true) (hf : s.faulted = false)
    (hp : s.pc.toNat ≤ 0x0FFE) (he : Effect i s t) : t.Inv := by
  have hadv : s.advance.Inv := h.advance hp
  cases i with
  | jp a =>
    obtain rfl := he
    exact h.setPc (by bv_omega)
  | jpV0 a =>
    obtain rfl := he
    exact h.setPc (by bv_omega)
  | call a =>
    obtain ⟨hsp, rfl⟩ := he
    exact (h.push hp hsp).setPc (by bv_omega)
  | ret =>
    obtain ⟨hsp, rfl⟩ := he
    exact h.pop hsp
  | seImm | sneImm | seReg | sneReg | skp | sknp =>
    obtain ⟨c, rfl⟩ := he
    exact h.skipIf hp c
  | ldDtVx x =>
    obtain rfl := he
    exact hadv.setTimers (byte_timer_le _) h.timers.2
  | ldStVx x =>
    obtain rfl := he
    exact hadv.setTimers h.timers.1 (byte_timer_le _)
  | ldVxK x =>
    obtain rfl := he
    exact ⟨hadv.timers, hadv.sp, hadv.pc, hadv.stack, hadv.font, fun _ => hf⟩
  | ldB | storeRegs =>
    obtain ⟨m, hm, rfl⟩ := he
    exact hadv.store hwf hm
  | ldImm | addImm | ldReg | orReg | andReg | xorReg | rnd | ldVxDt | addReg | subReg | subnReg | shr | shl | cls | ldI | addI | ldF =>
    obtain ⟨_, rfl⟩ := he
    exact hadv.of_frame rfl
  | drw =>
    obtain ⟨c, fb, rfl⟩ := he
    exact hadv.of_frame rfl
  | loadRegs | unhandled =>
    obtain rfl := he
    exact hadv.of_frame rfl

/-- The executor keeps the invariants of a machine whose gate is open: it is not faulted and does not wait. -/
theorem State.Inv.executorStep {s t : State} (h : s.Inv) (hwf : s.mem.wf = true) (hf : s.faulted = false)
    (hw : s.awaiting = false) (he : executorStep s = .next t) : t.Inv := by
  rcases executorStep_cases he with ⟨a, rfl⟩ | ⟨hp, he⟩
  · exact h.enterFaulted hw _ _ _ _
  · have hrec : ({ s with curInstr := s.fetchWord } : State).Inv := h.of_frame rfl
    rcases exec_cases he with ⟨c, a, rfl⟩ | he
    · exact hrec.enterFaulted hw _ _ _ _
    · exact hrec.effect hwf hf hp he

/-! ## Every phase and every move -/

theorem State.Inv.beforeStep {s : State} (h : s.Inv) (ev : Ev) : (s.beforeStep ev).Inv := by
  rcases s.beforeStep_cases ev with hb | ⟨-, b, hb⟩
  · rw [hb]; exact h.of_frame rfl
  · rw [hb]; exact ⟨h.timers, h.sp, h.pc, h.stack, h.font, nofun⟩

theorem countDown_le (t : Word) : (countDown t).toNat ≤ t.toNat := by
  unfold countDown
  split
  · exact Nat.zero_le _
  · bv_omega

theorem State.Inv.timerPhase {s : State} (h : s.Inv) (ev : Ev) : (s.timerPhase ev).Inv := by
  unfold State.timerPhase
  split
  · exact h.setTimers ((countDown_le _).trans h.timers.1) ((countDown_le _).trans h.timers.2)
  · exact h

theorem State.Inv.afterStep {s : State} (h : s.Inv) (ev : Ev) : (s.afterStep ev).Inv := (h.timerPhase ev).of_frame rfl

theorem awaiting_of_stepGate {s : State} {ev : Ev} (h : s.stepGate ev = true) : s.awaiting = false := by
  simp only [State.stepGate, Bool.and_eq_true, Bool.not_eq_true'] at h
  exact h.1.2

theorem State.Inv.iterate {s t : State} {ev : Ev} (h : s.Inv) (hwf : s.mem.wf = true) (hi : iterate ev s = .next t) : t.Inv := by
  rcases iterate_cases hi with ⟨-, rfl⟩ | ⟨hf, ⟨-, rfl⟩ | ⟨hgate, u, hu, rfl⟩⟩
  · exact h.of_frame rfl
  · exact (h.beforeStep ev).afterStep ev
  · exact ((h.beforeStep ev).executorStep (by rwa [State.beforeStep_mem]) (by rwa [State.beforeStep_faulted])
      (awaiting_of_stepGate hgate) hu).afterStep ev

/-- What a Load can do: it stores the file above the font and inside memory, or stores nothing. -/
theorem State.doLoad_cases (s : State) (file : Option (List Byte)) :
    (∃ b, s.doLoad file = { s with boot := b }) ∨ ∃ m b, s.Stores m ∧ s.doLoad file = { s with mem := m, boot := b } := by
  cases file with
  | none => exact .inl ⟨_, rfl⟩
  | some bytes =>
    rcases Nat.lt_or_ge Config.maxRom bytes.length with hlen | hlen
    · exact .inl ⟨_, s.doLoad_tooLarge hlen⟩
    · refine .inr ⟨_, _, ⟨Config.progBase, bytes, ?_, fun _ => by decide, rfl⟩, s.doLoad_ok hlen⟩
      simp only [Config.maxRom, Config.memSize, Config.progBase] at hlen ⊢
      omega

theorem State.Inv.doLoad {s : State} (h : s.Inv) (hwf : s.mem.wf = true) (file : Option (List Byte)) : (s.doLoad file).Inv := by
  rcases s.doLoad_cases file with ⟨b, hb⟩ | ⟨m, b, hm, hb⟩
  · rw [hb]; exact h.of_frame rfl
  · rw [hb]; exact (h.store hwf hm).of_frame rfl

/-- Settles O57: each move of the host keeps the invariants, and taking it off the list changes none of their elements. -/
theorem stepKeepsTheInvariant : Obligations.StepKeepsTheInvariant := by
  rintro s t ⟨hwf, -⟩ h hstep
  obtain ⟨u, rfl, ⟨ev, -, hi⟩ | ⟨-, rfl⟩ | ⟨file, -, -, rfl⟩ | ⟨hz, -, rfl⟩⟩ := step_cases hstep
  · exact (h.iterate hwf hi).consumeOp
  · exact s.inv_doReset.consumeOp
  · exact (h.doLoad hwf file).consumeOp
  · exact (h.setCycleHz hz).consumeOp

/-! ## The canonical form of memory, and every run -/

/-- A store inside memory keeps its canonical form and its range. -/
theorem State.MemOk.stores {s : State} {m : Memory} (h : s.MemOk) (hm : s.Stores m) : m.wf = true ∧ m.inRange = true := by
  obtain ⟨a, bytes, hrange, -, rfl⟩ := hm
  exact ⟨Memory.wf_writeBytes h.1 a bytes, Memory.inRange_writeBytes hrange h.2⟩

theorem State.MemOk.of_mem_eq {s t : State} (h : s.MemOk) (hm : t.mem = s.mem) : t.MemOk := by
  unfold State.MemOk
  rwa [hm]

/-- Memory after an instruction is as before, or a store's that passed the checks. -/
theorem exec_mem {i : Instr} {s t : State} (h : exec i s = .next t) : t.mem = s.mem ∨ s.Stores t.mem := by
  rcases exec_cases h with ⟨c, a, rfl⟩ | he
  · exact .inl rfl
  · by_cases hm : t.mem = s.mem
    · exact .inl hm
    · obtain ⟨-, -, -, hwriters, -⟩ := eachElementHasItsWriters i s t h
      obtain ⟨x, rfl⟩ | ⟨x, rfl⟩ := hwriters hm
      all_goals
        obtain ⟨m, hstores, rfl⟩ := he
        exact .inr hstores

theorem State.MemOk.exec {i : Instr} {s t : State} (h : s.MemOk) (he : exec i s = .next t) : t.MemOk :=
  (exec_mem he).elim h.of_mem_eq h.stores

theorem State.afterStep_mem (s : State) (ev : Ev) : (s.afterStep ev).mem = s.mem := by rw [State.afterStep_eq]

theorem State.MemOk.executorStep {s t : State} (h : s.MemOk) (he : executorStep s = .next t) : t.MemOk := by
  rcases executorStep_cases he with ⟨a, rfl⟩ | ⟨-, he⟩
  · exact h
  · have hrec : ({ s with curInstr := s.fetchWord } : State).MemOk := h
    exact hrec.exec he

theorem State.MemOk.iterate {s t : State} {ev : Ev} (h : s.MemOk) (hi : iterate ev s = .next t) : t.MemOk := by
  have hb : (s.beforeStep ev).MemOk := h.of_mem_eq (s.beforeStep_mem ev)
  rcases iterate_cases hi with ⟨-, rfl⟩ | ⟨-, ⟨-, rfl⟩ | ⟨-, u, hu, rfl⟩⟩
  · exact h
  · exact hb.of_mem_eq (State.afterStep_mem _ ev)
  · exact (hb.executorStep hu).of_mem_eq (u.afterStep_mem ev)

theorem step_keeps_memOk {s t : State} (h : s.MemOk) (hstep : step s = .next t) : t.MemOk := by
  obtain ⟨u, rfl, hu⟩ := step_cases hstep
  refine State.MemOk.of_mem_eq ?_ u.consumeOp_mem
  obtain ⟨ev, -, hi⟩ | ⟨-, rfl⟩ | ⟨file, -, -, rfl⟩ | ⟨hz, -, rfl⟩ := hu
  · exact h.iterate hi
  · exact s.memOk_doReset
  · rcases s.doLoad_cases file with ⟨b, hb⟩ | ⟨m, b, hm, hb⟩
    · rw [hb]; exact h
    · rw [hb]; exact h.stores hm
  · exact h

theorem Reachable.inv_and_memOk {s : State} (h : Reachable s) : s.Inv ∧ s.MemOk := by
  induction h with
  | created p ops => exact ⟨State.inv_created p ops, State.memOk_created p ops⟩
  | step _ hstep ih => exact ⟨stepKeepsTheInvariant _ _ ih.2 ih.1 hstep, step_keeps_memOk ih.2 hstep⟩

/-- Settles O59: by induction on the run, with the canonical form of memory carried along. -/
theorem reachableStatesMeetTheInvariant : Obligations.ReachableStatesMeetTheInvariant :=
  fun _ h => h.inv_and_memOk.1

end Sys2Proof.Machine
end

section
/-! SUPPORT. What a step can do to memory, and what of it the font region and the next fetch see (20_memory.md R55, R62); and the agreement
of the fault record (60_exceptions.md R221, R222). -/

namespace Sys2Proof.Machine

/-! ## Self-modification: a block stored over the next instruction -/

/-- A store of registers that passes its checks: memory gets the block and PC advances. -/
theorem exec_storeRegs_of_mayStore {s : State} {x : Reg} (h : s.MayStore (x.toNat + 1)) :
    exec (.storeRegs x) s = .next { s.advance with mem := s.mem.writeBytes s.i.toNat (s.regBlock x) } := by
  have hnone : s.writeFault (x.toNat + 1) = none := by
    rw [State.writeFault_eq s (Nat.succ_pos _), if_neg fun hfont => by have := h.2 hfont.1; omega, if_pos h.1]
  rw [exec, execStoreRegs, hnone, State.orRaise_none]
  rfl

/-- Register `r` of a stored block is read back at I + r. -/
theorem State.read_storedRegs {s : State} {x r : Reg} (hwf : s.mem.wf = true) (hr : r.toNat ≤ x.toNat) :
    (s.mem.writeBytes s.i.toNat (s.regBlock x)).read (s.i.toNat + r.toNat) = s.reg r := by
  rw [Memory.read_writeBytes hwf, s.length_regBlock, if_pos (by omega), Nat.add_sub_cancel_left, s.getD_regBlock x r hr]

/-- Settles O41: PC is below the end of the block, so it advances without a wrap, and the two bytes fetched there are registers `r`
and `q` of the block. -/
theorem storeIsSeenByTheNextFetch : Obligations.StoreIsSeenByTheNextFetch := by
  intro s t x r q hwf hmay hexec hq hqx hpc
  rw [exec_storeRegs_of_mayStore hmay] at hexec
  cases hexec
  obtain ⟨hrange, -⟩ := hmay
  have hadv : (s.pc + 2).toNat = s.i.toNat + r.toNat := by bv_omega
  have hnext : s.i.toNat + r.toNat + 1 = s.i.toNat + q.toNat := by omega
  simp only [State.fetchWord, State.advance_pc, toNat_wordOfBytes]
  rw [hadv, hnext, State.read_storedRegs hwf (by omega), State.read_storedRegs hwf hqx]

/-! ## Memory after a step, and the font region -/

/-- A store is allowed on every state with the same memory and the same parameters. -/
theorem State.Stores.of_frame {s u : State} {m : Memory} (h : u.Stores m) (hmem : u.mem = s.mem) (hparams : u.params = s.params) :
    s.Stores m := by
  unfold State.Stores at *
  rwa [hmem, hparams] at h

@[simp] theorem State.beforeStep_params (s : State) (ev : Ev) : (s.beforeStep ev).params = s.params := by rw [State.beforeStep_eq]

theorem executorStep_mem {s t : State} (h : executorStep s = .next t) : t.mem = s.mem ∨ s.Stores t.mem := by
  rcases executorStep_cases h with ⟨a, rfl⟩ | ⟨-, he⟩
  · exact .inl rfl
  · exact (exec_mem he).imp_right fun hm => hm.of_frame rfl rfl

theorem iterate_mem {s t : State} {ev : Ev} (h : iterate ev s = .next t) : t.mem = s.mem ∨ s.Stores t.mem := by
  rcases iterate_cases h with ⟨-, rfl⟩ | ⟨-, ⟨-, rfl⟩ | ⟨-, u, hu, rfl⟩⟩
  · exact .inl rfl
  · exact .inl ((State.afterStep_mem _ ev).trans (s.beforeStep_mem ev))
  · rw [State.afterStep_mem]
    exact (executorStep_mem hu).imp (·.trans (s.beforeStep_mem ev)) (·.of_frame (s.beforeStep_mem ev) (s.beforeStep_params ev))

theorem State.doLoad_mem (s : State) (file : Option (List Byte)) : (s.doLoad file).mem = s.mem ∨ s.Stores (s.doLoad file).mem := by
  rcases s.doLoad_cases file with ⟨b, hb⟩ | ⟨m, b, hm, hb⟩
  · rw [hb]; exact .inl rfl
  · rw [hb]; exact .inr hm

/-- Memory after a move that is no Reset is as before, or a store's that passed the checks. -/
theorem step_mem {s t : State} (hop : s.pendingOp ≠ .reset) (h : step s = .next t) : t.mem = s.mem ∨ s.Stores t.mem := by
  obtain ⟨u, rfl, hu⟩ := step_cases h
  rw [State.consumeOp_mem]
  obtain ⟨ev, -, hi⟩ | ⟨hreset, -⟩ | ⟨file, -, -, rfl⟩ | ⟨hz, -, rfl⟩ := hu
  · exact iterate_mem hi
  · exact absurd hreset hop
  · exact s.doLoad_mem file
  · exact .inl rfl

/-- Under FONT_WRITE_POLICY = FAULT a store lies above the font region. -/
theorem State.Stores.read_font {s : State} {m : Memory} (h : s.Stores m) (hwf : s.mem.wf = true)
    (hp : s.params.fontWritePolicy = .fault) {k : Nat} (hk : k < 80) : m.read k = s.mem.read k := by
  obtain ⟨a, bytes, -, habove, rfl⟩ := h
  have := habove hp
  rw [Memory.read_writeBytes hwf, if_neg (by omega)]

/-- Settles O55: memory after the step is as before, or a store's above the font region. -/
theorem fontRegionIsReadOnly : Obligations.FontRegionIsReadOnly := by
  intro s t a hwf hp hop hstep ha
  rcases step_mem hop hstep with hmem | hstores
  · rw [hmem]
  · exact hstores.read_font hwf hp ha

/-! ## The fault record -/

theorem State.RecordOk.of_frame {s t : State} (h : s.RecordOk) (hcause : t.faultCause = s.faultCause)
    (hfaulted : t.faulted = s.faulted) : t.RecordOk := by
  unfold State.RecordOk
  rwa [hcause, hfaulted]

/-- A fault is entered with a cause. -/
theorem State.recordOk_enterFaulted (s : State) {c : FaultCause} (hc : c ≠ .none) (p w : Word) (a : Nat) :
    (s.enterFaulted c p w a).RecordOk :=
  iff_of_false hc Bool.true_eq_false.mp

theorem State.recordOk_raise (s : State) {c : FaultCause} (hc : c ≠ .none) (a : Nat) : (s.raise c a).RecordOk :=
  s.recordOk_enterFaulted hc _ _ a

theorem State.readFault_cause {s : State} {n a : Nat} {c : FaultCause} (h : s.readFault n = some (c, a)) : c = .dataRange := by
  rw [State.readFault_eq] at h
  split at h
  · cases h
  · cases h; rfl

theorem State.writeFault_cause {s : State} {n a : Nat} {c : FaultCause} (hpos : 0 < n) (h : s.writeFault n = some (c, a)) :
    c = .fontWrite ∨ c = .dataRange := by
  rw [State.writeFault_eq s hpos] at h
  split at h
  · cases h; exact .inl rfl
  · split at h
    · cases h
    · cases h; exact .inr rfl

/-- A range check that names a cause where it fails, before an effect that leaves the record. -/
theorem State.RecordOk.orRaise {s effect : State} {failing : Option (FaultCause × Nat)} (h : s.RecordOk)
    (hcause : effect.faultCause = s.faultCause) (hfaulted : effect.faulted = s.faulted)
    (hc : ∀ c a, failing = some (c, a) → c ≠ .none) : (s.orRaise failing effect).RecordOk := by
  cases failing with
  | none => exact h.of_frame hcause hfaulted
  | some f => exact s.recordOk_raise (hc f.1 f.2 rfl) f.2

theorem State.readFault_ne_none {s : State} {n : Nat} (c : FaultCause) (a : Nat) (h : s.readFault n = some (c, a)) : c ≠ .none := by
  rw [State.readFault_cause h]; decide

theorem State.writeFault_ne_none {s : State} {n : Nat} (hpos : 0 < n) (c : FaultCause) (a : Nat)
    (h : s.writeFault n = some (c, a)) : c ≠ .none := by
  rcases State.writeFault_cause hpos h with rfl | rfl
  · decide
  · decide

/-- Every instruction either names a cause in the record or leaves the record. -/
theorem State.RecordOk.exec {i : Instr} {s t : State} (h : s.RecordOk) (he : exec i s = .next t) : t.RecordOk := by
  cases i with
  | call a =>
    rcases Nat.lt_or_eq_of_le (Nat.le_of_lt_succ s.sp.isLt) with hsp | hsp
    · rw [Machine.exec, execCall, State.push_of_lt s _ hsp] at he
      cases he; exact h
    · rw [Machine.exec, execCall, State.push_full s _ hsp] at he
      cases he; exact s.recordOk_raise (by decide) _
  | ret nn =>
    rcases Nat.eq_zero_or_pos s.sp.val with hsp | hsp
    · rw [Machine.exec, execRet, State.pop_empty s hsp] at he
      cases he; exact s.recordOk_raise (by decide) _
    · rw [Machine.exec, execRet, State.pop_of_pos s hsp] at he
      cases he; exact h
  | skp x | sknp x =>
    simp only [Machine.exec, execSkp, execSknp] at he
    cases hk : s.keyPressed (s.reg x) with
    | none => rw [hk] at he; cases he; exact s.recordOk_raise (by decide) _
    | some held => rw [hk] at he; cases he; exact h
  | drw | loadRegs => cases he; exact h.orRaise rfl rfl State.readFault_ne_none
  | ldB | storeRegs => cases he; exact h.orRaise rfl rfl (State.writeFault_ne_none (Nat.succ_pos _))
  | shr | shl => cases he; exact h.of_frame (by rw [State.shiftReg_eq]; rfl) (by rw [State.shiftReg_eq]; rfl)
  | cls | jp | jpV0 | seImm | sneImm | seReg | sneReg | ldImm | addImm | ldReg | orReg | andReg | xorReg | addReg | subReg | subnReg
  | rnd | ldI | addI | ldF | ldVxDt | ldVxK | ldDtVx | ldStVx | unhandled => cases he; exact h

theorem State.RecordOk.executorStep {s t : State} (h : s.RecordOk) (he : executorStep s = .next t) : t.RecordOk := by
  rcases executorStep_cases he with ⟨a, rfl⟩ | ⟨-, he⟩
  · exact s.recordOk_enterFaulted (by decide) _ _ a
  · have hrec : ({ s with curInstr := s.fetchWord } : State).RecordOk := h
    exact hrec.exec he

theorem State.RecordOk.beforeStep {s : State} (h : s.RecordOk) (ev : Ev) : (s.beforeStep ev).RecordOk := by
  rw [State.beforeStep_eq]; exact h

theorem State.RecordOk.afterStep {s : State} (h : s.RecordOk) (ev : Ev) : (s.afterStep ev).RecordOk := by
  rw [State.afterStep_eq]; exact h

theorem State.RecordOk.iterate {s t : State} {ev : Ev} (h : s.RecordOk) (hi : iterate ev s = .next t) : t.RecordOk := by
  rcases iterate_cases hi with ⟨-, rfl⟩ | ⟨-, ⟨-, rfl⟩ | ⟨-, u, hu, rfl⟩⟩
  · exact h
  · exact (h.beforeStep ev).afterStep ev
  · exact ((h.beforeStep ev).executorStep hu).afterStep ev

theorem State.RecordOk.doLoad {s : State} (h : s.RecordOk) (file : Option (List Byte)) : (s.doLoad file).RecordOk := by
  rcases s.doLoad_cases file with ⟨b, hb⟩ | ⟨m, b, -, hb⟩
  · rw [hb]; exact h
  · rw [hb]; exact h

theorem State.recordOk_doReset (s : State) : s.doReset.RecordOk := iff_of_true rfl rfl

theorem step_keeps_recordOk {s t : State} (h : s.RecordOk) (hstep : step s = .next t) : t.RecordOk := by
  obtain ⟨u, rfl, hu⟩ := step_cases hstep
  refine State.RecordOk.of_frame ?_ u.consumeOp_faultCause u.consumeOp_faulted
  obtain ⟨ev, -, hi⟩ | ⟨-, rfl⟩ | ⟨file, -, -, rfl⟩ | ⟨hz, -, rfl⟩ := hu
  · exact h.iterate hi
  · exact s.recordOk_doReset
  · exact h.doLoad file
  · exact h

/-- Settles O58: each move of the host keeps the canonical form of memory, and each keeps the agreement of the record. -/
theorem stepKeepsMemoryAndRecord : Obligations.StepKeepsMemoryAndRecord :=
  fun _ _ hstep => ⟨fun h => step_keeps_memOk h hstep, fun h => step_keeps_recordOk h hstep⟩

end Sys2Proof.Machine
end

section
/-! SUPPORT. Encoding: decoder and encoder undo each other, the opcode map agrees with the decode tree, and ignored fields have no effect
(30_encoding.md R71 to R84). The decode tree is walked through once for the words it answers (`decode_isOf`) and once for the fields it
reads (`SameOpcode.row_decode`). -/

namespace Sys2Proof

/-! ## The unhandled words of each group, in the fields of the word (30_encoding.md R79) -/

section unhandled
variable {z : ZeroGroupDecode} {w : Word}

theorem isUnhandledWord_group0_lowNibble (h : opField w = 0x0#4) :
    isUnhandledWord .lowNibble w = true ↔ nField w ≠ 0x0#4 ∧ nField w ≠ 0xE#4 := by
  simp [isUnhandledWord, ← toNat_opField, ← toNat_nField, h, ← BitVec.toNat_inj]

theorem isUnhandledWord_group0_exact (h : opField w = 0x0#4) :
    isUnhandledWord .exact w = true ↔ nField w ≠ 0xE#4 ∧ ¬ (midField w = 0#8 ∧ nField w = 0x0#4) := by
  simp [isUnhandledWord, ← toNat_opField, ← toNat_nField, ← toNat_midField, h, ← BitVec.toNat_inj, -not_and, not_and_or]

theorem isUnhandledWord_group8 (h : opField w = 0x8#4) :
    isUnhandledWord z w = true ↔ nField w ∉ [0x0#4, 0x1#4, 0x2#4, 0x3#4, 0x4#4, 0x5#4, 0x6#4, 0x7#4, 0xE#4] := by
  simp only [isUnhandledWord, ← toNat_opField, ← toNat_nField, h, BitVec.reduceToNat, reduceIte, Nat.reduceEqDiff]
  generalize nField w = n
  revert n
  decide

theorem isUnhandledWord_groupE (h : opField w = 0xE#4) : isUnhandledWord z w = true ↔ byteField w ∉ [0x9E#8, 0xA1#8] := by
  simp [isUnhandledWord, ← toNat_opField, ← toNat_byteField, h, ← BitVec.toNat_inj]

theorem isUnhandledWord_groupF (h : opField w = 0xF#4) :
    isUnhandledWord z w = true ↔ byteField w ∉ [0x07#8, 0x0A#8, 0x15#8, 0x18#8, 0x1E#8, 0x29#8, 0x33#8, 0x55#8, 0x65#8] := by
  simp [isUnhandledWord, ← toNat_opField, ← toNat_byteField, h, ← BitVec.toNat_inj]

/-- The other groups decode on the top nibble alone. -/
theorem isUnhandledWord_otherGroup (h : opField w ∉ [0x0#4, 0x8#4, 0xE#4, 0xF#4]) : ¬ isUnhandledWord z w = true := by
  simp only [List.mem_cons, List.not_mem_nil, or_false, not_or, ← BitVec.toNat_inj] at h
  obtain ⟨h0, h8, hE, hF⟩ := h
  simp only [isUnhandledWord, ← toNat_opField]
  exact Bool.eq_false_iff.1 ((if_neg h0).trans ((if_neg h8).trans ((if_neg hE).trans (if_neg hF))))

end unhandled

/-- The instructions without a row are the ones whose word is unhandled. -/
theorem isUnhandledWord_encode {z : ZeroGroupDecode} {i : Instr} (hwf : i.wellFormed z = true) :
    isUnhandledWord z (encode i) = true ↔ i.row z = none := by
  cases i with
  | unhandled w => exact iff_of_true hwf rfl
  | cls nn =>
    cases z with
    | lowNibble => simp [encode, isUnhandledWord_group0_lowNibble, Instr.row]
    | exact =>
      obtain rfl : nn = 0 := beq_iff_eq.1 hwf
      decide
  | ret nn => cases z <;> simp [encode, isUnhandledWord_group0_lowNibble, isUnhandledWord_group0_exact, Instr.row]
  | ldReg | orReg | andReg | xorReg | addReg | subReg | shr | subnReg | shl => simp [encode, isUnhandledWord_group8, Instr.row]
  | skp | sknp => simp [encode, isUnhandledWord_groupE, Instr.row]
  | ldVxDt | ldVxK | ldDtVx | ldStVx | addI | ldF | ldB | storeRegs | loadRegs =>
    simp [encode, isUnhandledWord_groupF, Instr.row]
  | jp | call | seImm | sneImm | seReg | ldImm | addImm | sneReg | ldI | jpV0 | rnd | drw =>
    simp [encode, isUnhandledWord_otherGroup, Instr.row]

theorem eq_unhandled_of_row_eq_none {z : ZeroGroupDecode} {i : Instr} (h : i.row z = none) : i = .unhandled (encode i) := by
  cases i with
  | unhandled w => rfl
  | cls nn => cases z <;> cases h
  | _ => cases h

/-! ## The tree in the form of R74 to R78 -/

theorem decode_of_group0 {z : ZeroGroupDecode} {w : Word} (h : opField w = 0x0#4) : decode z w = decodeGroup0 z w := by
  simp [decode, h]

theorem decodeGroup0_lowNibble (w : Word) :
    decodeGroup0 .lowNibble w =
      if nField w = 0x0 then .cls (midField w) else if nField w = 0xE then .ret (midField w) else .unhandled w := by
  unfold decodeGroup0
  split <;> simp_all

theorem decodeGroup0_exact (w : Word) :
    decodeGroup0 .exact w =
      if midField w = 0 ∧ nField w = 0x0 then .cls 0 else if nField w = 0xE then .ret (midField w) else .unhandled w := by
  unfold decodeGroup0
  split <;> simp_all

/-- What the last branch of `decode` stands for. -/
theorem eq_0xF_of_not_mem {op : Nibble}
    (h : op ∉ [0x0#4, 0x1#4, 0x2#4, 0x3#4, 0x4#4, 0x5#4, 0x6#4, 0x7#4, 0x8#4, 0x9#4, 0xA#4, 0xB#4, 0xC#4, 0xD#4, 0xE#4]) :
    op = 0xF#4 := by
  revert op
  decide

/-! ## Every word decodes, and encodes back (30_encoding.md R73) -/

/-- The instruction is one of the machine, and the word is its encoding. -/
def Instr.IsOf (i : Instr) (z : ZeroGroupDecode) (w : Word) : Prop := i.wellFormed z = true ∧ encode i = w

section tree
variable {z : ZeroGroupDecode} {w : Word}

theorem Instr.isOf_unhandled (h : isUnhandledWord z w = true) : (Instr.unhandled w).IsOf z w := ⟨h, rfl⟩

theorem wordXYN_eq_of_fields {op n : Nibble} (hop : opField w = op) (hn : nField w = n) :
    wordXYN op (xField w) (yField w) n = w := by
  rw [← hop, ← hn, wordXYN_fields]

theorem wordXKK_eq_of_fields {op : Nibble} {kk : Byte} (hop : opField w = op) (hkk : byteField w = kk) :
    wordXKK op (xField w) kk = w := by
  rw [← hop, ← hkk, wordXKK_fields]

theorem wordAddr_eq_of_fields {op : Nibble} (hop : opField w = op) : wordAddr op (addrField w) = w := by
  rw [← hop, wordAddr_fields]

theorem wordZero_eq_of_fields {nn : Byte} {n : Nibble} (hop : opField w = 0x0#4) (hnn : midField w = nn) (hn : nField w = n) :
    wordZero nn n = w := by
  rw [← hnn, ← hn, wordZero_fields w hop]

theorem decodeGroup0_isOf (hop : opField w = 0x0#4) : (decodeGroup0 z w).IsOf z w := by
  cases z with
  | lowNibble =>
    rw [decodeGroup0_lowNibble]
    split_ifs with h0 hE
    · exact ⟨rfl, wordZero_eq_of_fields hop rfl h0⟩
    · exact ⟨rfl, wordZero_eq_of_fields hop rfl hE⟩
    · exact Instr.isOf_unhandled ((isUnhandledWord_group0_lowNibble hop).2 ⟨h0, hE⟩)
  | exact =>
    rw [decodeGroup0_exact]
    split_ifs with h0 hE
    · exact ⟨rfl, wordZero_eq_of_fields hop h0.1 h0.2⟩
    · exact ⟨rfl, wordZero_eq_of_fields hop rfl hE⟩
    · exact Instr.isOf_unhandled ((isUnhandledWord_group0_exact hop).2 ⟨hE, h0⟩)

theorem decodeGroup8_isOf (hop : opField w = 0x8#4) : (decodeGroup8 w).IsOf z w := by
  unfold decodeGroup8
  split
  case h_10 => exact Instr.isOf_unhandled ((isUnhandledWord_group8 hop).2 (by simp_all))
  all_goals exact ⟨rfl, wordXYN_eq_of_fields hop ‹_›⟩

theorem decodeGroupE_isOf (hop : opField w = 0xE#4) : (decodeGroupE w).IsOf z w := by
  unfold decodeGroupE
  split
  case h_3 => exact Instr.isOf_unhandled ((isUnhandledWord_groupE hop).2 (by simp_all))
  all_goals exact ⟨rfl, wordXKK_eq_of_fields hop ‹_›⟩

theorem decodeGroupF_isOf (hop : opField w = 0xF#4) : (decodeGroupF w).IsOf z w := by
  unfold decodeGroupF
  split
  case h_10 => exact Instr.isOf_unhandled ((isUnhandledWord_groupF hop).2 (by simp_all))
  all_goals exact ⟨rfl, wordXKK_eq_of_fields hop ‹_›⟩

end tree

theorem decode_isOf (z : ZeroGroupDecode) (w : Word) : (decode z w).IsOf z w := by
  unfold decode
  split
  case h_1 hop => exact decodeGroup0_isOf hop
  case h_9 hop => exact decodeGroup8_isOf hop
  case h_15 hop => exact decodeGroupE_isOf hop
  case h_16 => exact decodeGroupF_isOf (eq_0xF_of_not_mem (by simp_all))
  case h_2 hop | h_3 hop | h_11 hop | h_12 hop => exact ⟨rfl, wordAddr_eq_of_fields hop⟩
  case h_6 hop | h_10 hop | h_14 hop => exact ⟨rfl, wordXYN_eq_of_fields hop rfl⟩
  case h_4 hop | h_5 hop | h_7 hop | h_8 hop | h_13 hop => exact ⟨rfl, wordXKK_eq_of_fields hop rfl⟩

/-- Settles O2, group by group along the decode tree. -/
theorem everyWordDecodesAndReencodes : Obligations.EveryWordDecodesAndReencodes := decode_isOf

/-! ## Decoding an encoding (30_encoding.md R71) -/

theorem decode_of_isUnhandledWord {z : ZeroGroupDecode} {w : Word} (h : isUnhandledWord z w = true) : decode z w = .unhandled w := by
  obtain ⟨hwf, hword⟩ := decode_isOf z w
  have hrow : (decode z w).row z = none := (isUnhandledWord_encode hwf).1 (hword.symm ▸ h)
  rw [eq_unhandled_of_row_eq_none hrow, hword]

theorem decode_encode {z : ZeroGroupDecode} {i : Instr} (hwf : i.wellFormed z = true) : decode z (encode i) = i := by
  cases i with
  | unhandled w => exact decode_of_isUnhandledWord hwf
  | cls nn =>
    cases z with
    | lowNibble => simp [encode, decode, decodeGroup0]
    | exact =>
      obtain rfl : nn = 0 := beq_iff_eq.1 hwf
      rfl
  | ret => simp [encode, decode, decodeGroup0]
  | ldReg | orReg | andReg | xorReg | addReg | subReg | shr | subnReg | shl => simp [encode, decode, decodeGroup8]
  | skp | sknp => simp [encode, decode, decodeGroupE]
  | ldVxDt | ldVxK | ldDtVx | ldStVx | addI | ldF | ldB | storeRegs | loadRegs => simp [encode, decode, decodeGroupF]
  | jp | call | seImm | sneImm | seReg | ldImm | addImm | sneReg | ldI | jpV0 | rnd | drw => simp [encode, decode]

/-- The two bytes of an instruction are those of its word. -/
theorem decodeBytes_encodeBytes (z : ZeroGroupDecode) (i : Instr) : decodeBytes z (encodeBytes i) = .ok (decode z (encode i), []) := by
  have hword : wordOfBytes ((encode i).extractLsb' 8 8) ((encode i).extractLsb' 0 8) = encode i :=
    (BitVec.extractLsb'_append_extractLsb'_eq_extractLsb' rfl).trans BitVec.extractLsb'_eq_self
  rw [encodeBytes, decodeBytes, hword]

/-- Settles O1: an instruction with a row by the fields of its word, an unhandled one by R79. -/
theorem decodeInvertsEncode : Obligations.DecodeInvertsEncode := fun z i hwf =>
  ⟨decode_encode hwf, by rw [decodeBytes_encodeBytes, decode_encode hwf]⟩

/-! ## The fields that the decode tree reads -/

/-- The words agree on every field that the decode tree reads in their group (30_encoding.md R74 to R78). -/
structure SameOpcode (z : ZeroGroupDecode) (w w' : Word) : Prop where
  op : opField w = opField w'
  n : opField w' ∈ [0x0#4, 0x8#4] → nField w = nField w'
  byte : opField w' ∈ [0xE#4, 0xF#4] → byteField w = byteField w'
  mid : z = .exact → opField w' = 0x0#4 → nField w' = 0x0#4 → midField w = midField w'

theorem SameOpcode.row_decode {z : ZeroGroupDecode} {w w' : Word} (h : SameOpcode z w w') :
    (decode z w).row z = (decode z w').row z := by
  obtain ⟨hop, hn, hbyte, hmid⟩ := h
  unfold decode
  rw [hop]
  split
  case h_1 h0 =>
    unfold decodeGroup0
    rw [hn (by simp [h0])]
    split
    case h_3 hn0 => rw [hmid rfl h0 hn0]; split <;> rfl
    all_goals rfl
  case h_9 h8 =>
    rw [decodeGroup8, decodeGroup8, hn (by simp [h8])]
    split <;> rfl
  case h_15 hE =>
    rw [decodeGroupE, decodeGroupE, hbyte (by simp [hE])]
    split <;> rfl
  case h_16 =>
    have hF : opField w' = 0xF#4 := eq_0xF_of_not_mem (by simp_all)
    rw [decodeGroupF, decodeGroupF, hbyte (by simp [hF])]
    split <;> rfl
  all_goals rfl

/-! ## The opcode map (30_encoding.md R84) -/

section fields
variable (w m : Word)
theorem opField_and : opField (w &&& m) = opField w &&& opField m := BitVec.extractLsb'_and
theorem nField_and : nField (w &&& m) = nField w &&& nField m := BitVec.extractLsb'_and
theorem byteField_and : byteField (w &&& m) = byteField w &&& byteField m := BitVec.extractLsb'_and
theorem midField_and : midField (w &&& m) = midField w &&& midField m := BitVec.extractLsb'_and
end fields

/-- Each row's mask covers the fields that the decode tree reads in the row's group. -/
theorem opcodeMap_mask_covers (z : ZeroGroupDecode) : ∀ r ∈ opcodeMap z,
    opField r.mask = BitVec.allOnes 4 ∧ (opField r.bits ∈ [0x0#4, 0x8#4] → nField r.mask = BitVec.allOnes 4) ∧
    (opField r.bits ∈ [0xE#4, 0xF#4] → byteField r.mask = BitVec.allOnes 8) ∧
    (z = .exact → opField r.bits = 0x0#4 → nField r.bits = 0x0#4 → midField r.mask = BitVec.allOnes 8) := by
  cases z <;> decide

theorem row_decode_bits (z : ZeroGroupDecode) : ∀ r ∈ opcodeMap z, (decode z r.bits).row z = some r := by
  cases z <;> decide

section selected
variable {z : ZeroGroupDecode} {r : OpcodeRow} {w : Word} {i : Instr}

theorem sameOpcode_of_selects (hr : r ∈ opcodeMap z) (h : w &&& r.mask = r.bits) : SameOpcode z w r.bits := by
  obtain ⟨hop, hn, hbyte, hmid⟩ := opcodeMap_mask_covers z r hr
  constructor
  case op => rw [← h, opField_and, hop, BitVec.and_allOnes]
  case n => intro hg; rw [← h, nField_and, hn hg, BitVec.and_allOnes]
  case byte => intro hg; rw [← h, byteField_and, hbyte hg, BitVec.and_allOnes]
  case mid => intro hz hg h0; rw [← h, midField_and, hmid hz hg h0, BitVec.and_allOnes]

/-- A word that selects a row decodes as the row's bits do. -/
theorem row_decode_of_selects (hr : r ∈ opcodeMap z) (h : w &&& r.mask = r.bits) : (decode z w).row z = some r :=
  (sameOpcode_of_selects hr h).row_decode.trans (row_decode_bits z r hr)

theorem row_mem_opcodeMap (h : i.row z = some r) : r ∈ opcodeMap z := by
  cases i with
  | unhandled => cases h
  | _ => cases z <;> cases h <;> decide

theorem encode_selects_row (hwf : i.wellFormed z = true) (h : i.row z = some r) : encode i &&& r.mask = r.bits := by
  cases i with
  | unhandled => cases h
  | cls nn => exact beq_iff_eq.1 (Laws.RowOfWord.cls nn z r hwf h)
  | ret => cases h; exact and_F00F_wordZero ..
  | jp | call | ldI | jpV0 => cases h; exact and_F000_wordAddr ..
  | seImm | sneImm | ldImm | addImm | rnd => cases h; exact and_F000_wordXKK ..
  | seReg | sneReg | drw => cases h; exact and_F000_wordXYN ..
  | ldReg | orReg | andReg | xorReg | addReg | subReg | shr | subnReg | shl => cases h; exact and_F00F_wordXYN ..
  | skp | sknp | ldVxDt | ldVxK | ldDtVx | ldStVx | addI | ldF | ldB | storeRegs | loadRegs => cases h; exact and_F0FF_wordXKK ..

end selected

/-- Settles O3: the word is the encoding of its instruction, which selects the instruction's row; and a word that selects a row agrees
with the row's bits on all that the decoder reads. -/
theorem decodeFollowsTheOpcodeMap : Obligations.DecodeFollowsTheOpcodeMap := by
  intro z w
  obtain ⟨hwf, hword⟩ := decode_isOf z w
  refine ⟨fun r hr => ⟨row_mem_opcodeMap hr, ?_⟩, fun r hr h => row_decode_of_selects hr h, ?_, fun h => ?_⟩
  · rw [← encode_selects_row hwf hr, hword]
  · rw [← isUnhandledWord_encode hwf, hword]
  · rw [eq_unhandled_of_row_eq_none h, hword]

/-! ## Group 0 under the two settings (30_encoding.md R74) -/

theorem eq_zero_iff_fields {w : Word} (h : opField w = 0x0#4) : w = 0 ↔ midField w = 0 ∧ nField w = 0x0 := by
  constructor
  · rintro rfl
    exact ⟨rfl, rfl⟩
  · rintro ⟨hmid, hn⟩
    exact (wordZero_eq_of_fields h hmid hn).symm

/-- Settles O4: the two branches of `decodeGroup0`, which differ where the low nibble is 0 and the bits above it are not. -/
theorem groupZeroDecodesByParameter : Obligations.GroupZeroDecodesByParameter := by
  intro w hop
  rw [decode_of_group0 hop, decode_of_group0 hop, decodeGroup0_lowNibble, decodeGroup0_exact]
  refine ⟨rfl, ?_, ?_⟩
  · simp only [eq_zero_iff_fields hop]
  · by_cases hn : nField w = 0x0#4
    · by_cases hmid : midField w = 0#8 <;> simp [hn, hmid]
    · simp [hn]

/-! ## Samples (30_encoding.md R84), and the fields that are ignored (R72, R78, R82) -/

/-- Settles O5: the decoder run on each of the words. -/
theorem sampleWordsDecodeAsWritten : Obligations.SampleWordsDecodeAsWritten := by
  unfold Obligations.SampleWordsDecodeAsWritten
  decide

/-- Settles O6: the meanings of the six instructions with an ignored field do not read it, and the others are their own assembler form. -/
theorem ignoredFieldsHaveNoEffect : Obligations.IgnoredFieldsHaveNoEffect := by
  intro i s
  cases i with
  | cls | ret | seReg | sneReg | shr | shl => rfl
  | _ => rfl

end Sys2Proof
end

section
/-! SUPPORT. The cycle of 40_execution_cycle.md: the key sample and the key wait before the executor, the executor's gate, and what is left
of an iteration where the gate is closed, where the fetch faults, and where an instruction runs. -/

namespace Sys2Proof.Machine

/-! ## The key wait (40_execution_cycle.md R104) -/

/-- The lowest press edge goes to V[wait_reg] and ends the wait. -/
theorem State.beforeStep_of_edge {s : State} {ev : Ev} {k : Nat} (hk : k < 16) (ha : s.awaiting = true) (hedge : s.Edge ev k)
    (hlow : ∀ j, j < k → ¬ s.Edge ev j) :
    s.beforeStep ev =
      { s.setReg s.waitReg (BitVec.ofNat 8 k) with key := ev.keysIn, paused := s.pausedNow ev, awaiting := false } := by
  obtain ⟨l, hl⟩ := State.pressEdges_cons (s := (s.sampleKeys ev).togglePause ev) hk hedge hlow
  rw [State.beforeStep, State.resolveKeyWait, if_pos (show ((s.sampleKeys ev).togglePause ev).awaiting = true from ha), hl]
  rfl

/-- Without a wait or a press edge only the key sample and the pause flag change. -/
theorem State.beforeStep_of_noEdge {s : State} {ev : Ev} (h : s.awaiting = false ∨ ∀ k, k < 16 → ¬ s.Edge ev k) :
    s.beforeStep ev = { s with key := ev.keysIn, paused := s.pausedNow ev } := by
  rw [State.beforeStep, State.resolveKeyWait]
  rcases h with ha | hnone
  · exact if_neg (show ¬ s.awaiting = true by simp [ha])
  · rw [State.pressEdges_nil (s := (s.sampleKeys ev).togglePause ev) hnone]
    exact ite_self _

/-- Settles O13: the list of press edges begins with the lowest one, or is empty. -/
theorem lowestPressEdgeResolvesTheWait : Obligations.LowestPressEdgeResolvesTheWait :=
  fun _ _ => ⟨fun _ hk ha hedge hlow => State.beforeStep_of_edge hk ha hedge hlow, State.beforeStep_of_noEdge⟩

theorem State.exists_lowest_edge {s : State} {ev : Ev} (h : ∃ k, k < 16 ∧ s.Edge ev k) :
    ∃ k, k < 16 ∧ s.Edge ev k ∧ ∀ j, j < k → ¬ s.Edge ev j := by
  classical
  obtain ⟨hk, hedge⟩ := Nat.find_spec h
  exact ⟨Nat.find h, hk, hedge, fun j hj he => Nat.find_min h hj ⟨hj.trans hk, he⟩⟩

/-- The machine does not wait when the executor's turn comes, if it did not before or a key edge resolves the wait. -/
theorem State.beforeStep_awaiting_eq_false (s : State) (ev : Ev) :
    (s.beforeStep ev).awaiting = false ↔ s.awaiting = false ∨ ∃ k, k < 16 ∧ s.Edge ev k := by
  by_cases hedge : ∃ k, k < 16 ∧ s.Edge ev k
  · refine iff_of_true ?_ (.inr hedge)
    obtain ⟨k, hk, he, hlow⟩ := State.exists_lowest_edge hedge
    cases ha : s.awaiting with
    | false => rw [State.beforeStep_of_noEdge (.inl ha), ← ha]
    | true => rw [State.beforeStep_of_edge hk ha he hlow]
  · have hnone : ∀ k, k < 16 → ¬ s.Edge ev k := fun k hk he => hedge ⟨k, hk, he⟩
    rw [State.beforeStep_of_noEdge (.inr hnone)]
    exact (or_iff_left hedge).symm

/-! ## The elements around the executor -/

section beforeStep
variable (s : State) (ev : Ev)
@[simp] theorem State.beforeStep_i : (s.beforeStep ev).i = s.i := by rw [State.beforeStep_eq]
@[simp] theorem State.beforeStep_pc : (s.beforeStep ev).pc = s.pc := by rw [State.beforeStep_eq]
@[simp] theorem State.beforeStep_stack : (s.beforeStep ev).stack = s.stack := by rw [State.beforeStep_eq]
@[simp] theorem State.beforeStep_sp : (s.beforeStep ev).sp = s.sp := by rw [State.beforeStep_eq]
@[simp] theorem State.beforeStep_fb : (s.beforeStep ev).fb = s.fb := by rw [State.beforeStep_eq]
@[simp] theorem State.beforeStep_dt : (s.beforeStep ev).dt = s.dt := by rw [State.beforeStep_eq]
@[simp] theorem State.beforeStep_st : (s.beforeStep ev).st = s.st := by rw [State.beforeStep_eq]
@[simp] theorem State.beforeStep_waitReg : (s.beforeStep ev).waitReg = s.waitReg := by rw [State.beforeStep_eq]
@[simp] theorem State.beforeStep_curInstr : (s.beforeStep ev).curInstr = s.curInstr := by rw [State.beforeStep_eq]
@[simp] theorem State.beforeStep_diag : (s.beforeStep ev).diag = s.diag := by rw [State.beforeStep_eq]
@[simp] theorem State.beforeStep_fetchWord : (s.beforeStep ev).fetchWord = s.fetchWord := by rw [State.beforeStep_eq]; rfl
end beforeStep

/-- A resolved wait leaves the key in V[wait_reg]. -/
theorem State.toNat_reg_beforeStep_of_edge {s : State} {ev : Ev} {k : Nat} (hk : k < 16) (ha : s.awaiting = true)
    (hedge : s.Edge ev k) (hlow : ∀ j, j < k → ¬ s.Edge ev j) : ((s.beforeStep ev).reg s.waitReg).toNat = k := by
  have hreg : (s.beforeStep ev).reg s.waitReg = (s.setReg s.waitReg (BitVec.ofNat 8 k)).reg s.waitReg := by
    rw [State.beforeStep_of_edge hk ha hedge hlow]; rfl
  rw [hreg, State.reg_setReg_self, BitVec.toNat_ofNat, Nat.mod_eq_of_lt (by omega)]

theorem State.reg_beforeStep_ne {s : State} {ev : Ev} {r : Reg} (h : r ≠ s.waitReg) : (s.beforeStep ev).reg r = s.reg r := by
  rcases s.beforeStep_cases ev with hb | ⟨-, b, hb⟩
  · rw [hb]; rfl
  · rw [hb]; exact s.reg_setReg_ne b h

section afterStep
variable (s : State) (ev : Ev)
@[simp] theorem State.afterStep_v : (s.afterStep ev).v = s.v := by rw [State.afterStep_eq]
@[simp] theorem State.afterStep_reg (r : Reg) : (s.afterStep ev).reg r = s.reg r := State.reg_congr (s.afterStep_v ev) r
@[simp] theorem State.afterStep_i : (s.afterStep ev).i = s.i := by rw [State.afterStep_eq]
@[simp] theorem State.afterStep_pc : (s.afterStep ev).pc = s.pc := by rw [State.afterStep_eq]
@[simp] theorem State.afterStep_stack : (s.afterStep ev).stack = s.stack := by rw [State.afterStep_eq]
@[simp] theorem State.afterStep_sp : (s.afterStep ev).sp = s.sp := by rw [State.afterStep_eq]
@[simp] theorem State.afterStep_fb : (s.afterStep ev).fb = s.fb := by rw [State.afterStep_eq]
@[simp] theorem State.afterStep_key : (s.afterStep ev).key = s.key := by rw [State.afterStep_eq]
@[simp] theorem State.afterStep_prevKey : (s.afterStep ev).prevKey = s.key := by rw [State.afterStep_eq]
@[simp] theorem State.afterStep_paused : (s.afterStep ev).paused = s.paused := by rw [State.afterStep_eq]
@[simp] theorem State.afterStep_awaiting : (s.afterStep ev).awaiting = s.awaiting := by rw [State.afterStep_eq]
@[simp] theorem State.afterStep_waitReg : (s.afterStep ev).waitReg = s.waitReg := by rw [State.afterStep_eq]
@[simp] theorem State.afterStep_curInstr : (s.afterStep ev).curInstr = s.curInstr := by rw [State.afterStep_eq]
@[simp] theorem State.afterStep_faulted : (s.afterStep ev).faulted = s.faulted := by rw [State.afterStep_eq]
@[simp] theorem State.afterStep_boot : (s.afterStep ev).boot = .running := by rw [State.afterStep_eq]
@[simp] theorem State.afterStep_diag : (s.afterStep ev).diag = s.diag := by rw [State.afterStep_eq]
end afterStep

theorem toNat_countDown (t : Word) : (countDown t).toNat = t.toNat - 1 := by
  unfold countDown
  split
  next h => rw [h]; rfl
  next => bv_omega

/-- The last phases write PrevKey, the place in the boot order and the timers. -/
theorem State.consumeOp_afterStep {s : State} {ev : Ev} (hkey : s.key = ev.keysIn) :
    (s.afterStep ev).consumeOp =
      State.consumeOp { s with
        prevKey := ev.keysIn, boot := .running, dt := (s.afterStep ev).consumeOp.dt, st := (s.afterStep ev).consumeOp.st } := by
  rw [State.consumeOp_dt, State.consumeOp_st, State.afterStep_eq, hkey]

/-- The timers count down at the end of an iteration exactly where the timer gate is open. -/
theorem State.timersFrom_afterStep (s : State) (ev : Ev) :
    (s.afterStep ev).consumeOp.TimersFrom (s.timerGate ev = true) s.dt s.st := by
  unfold State.TimersFrom
  rw [State.consumeOp_dt, State.consumeOp_st, State.afterStep_eq]
  refine ⟨fun h => ?_, fun h => ?_⟩
  · simp only [if_pos h, toNat_countDown, and_self]
  · simp only [if_neg h, and_self]

theorem State.afterStep_of_faulted {s : State} (ev : Ev) (h : s.faulted = true) :
    s.afterStep ev = { s with prevKey := s.key, boot := .running } := by
  rw [State.afterStep_eq]
  simp [State.timerGate, h]

theorem State.afterStep_of_not_timerDue {s : State} {ev : Ev} (h : ev.timerDue = false) :
    s.afterStep ev = { s with prevKey := s.key, boot := .running } := by
  rw [State.afterStep_eq]
  simp [State.timerGate, h]

theorem State.timerGate_eq_true (s : State) (ev : Ev) :
    s.timerGate ev = true ↔ s.faulted = false ∧ s.paused = false ∧ ev.timerDue = true := by
  simp [State.timerGate, and_assoc]

/-! ## The executor's gate (40_execution_cycle.md R105, R108) -/

theorem State.stepGate_beforeStep (s : State) (ev : Ev) :
    (s.beforeStep ev).stepGate ev = true ↔
      s.pausedNow ev = false ∧ (s.awaiting = false ∨ ∃ k, k < 16 ∧ s.Edge ev k) ∧ (ev.execDue = true ∨ ev.stepReq = true) := by
  rw [← State.beforeStep_awaiting_eq_false]
  simp [State.stepGate, and_assoc]

/-- Where the gate is closed, the iteration's last phases follow its first ones. -/
theorem step_of_closedGate {s : State} {ev : Ev} (hit : s.Iterates ev) (hf : s.faulted = false)
    (hg : (s.beforeStep ev).stepGate ev = false) : step s = .next ((s.beforeStep ev).afterStep ev).consumeOp := by
  rw [step_of_iterate hit.1 hit.2, iterate_skips hf hg, mapNext_next]

/-- Where the gate is open, the executor runs between them. -/
theorem step_of_openGate {s : State} {ev : Ev} (hit : s.Iterates ev) (hf : s.faulted = false)
    (hg : (s.beforeStep ev).stepGate ev = true) :
    step s = mapNext (fun t => (t.afterStep ev).consumeOp) (executorStep (s.beforeStep ev)) := by
  rw [step_of_iterate hit.1 hit.2, iterate_executes hf hg, mapNext_mapNext]

/-- A step of an instruction that is fetched inside memory. -/
theorem step_of_runs {s : State} {ev : Ev} (h : s.Runs ev) (hp : s.pc.toNat ≤ 0x0FFE) :
    step s = mapNext (fun t => (t.afterStep ev).consumeOp) (exec (decode s.params.zeroGroupDecode s.fetchWord) (s.atExecute ev)) := by
  obtain ⟨hit, hf, hg⟩ := h
  have hz : (s.beforeStep ev).params.zeroGroupDecode = s.params.zeroGroupDecode := by rw [State.beforeStep_params]
  rw [step_of_openGate hit hf hg, executorStep_fetch (by rwa [State.beforeStep_pc]), hz, State.beforeStep_fetchWord]
  rfl

/-- Settles O14: the gate is `stepGate_beforeStep`, and behind a closed gate only the phases before and after the executor write. -/
theorem executorGateFollowsTheTable : Obligations.ExecutorGateFollowsTheTable := by
  intro s ev hit hf
  refine ⟨s.stepGate_beforeStep ev, fun hg => ⟨_, step_of_closedGate hit hf hg, ?_, ?_, fun hnone => ?_, ?_, ?_⟩⟩
  · exact State.consumeOp_afterStep (s.beforeStep_key ev)
  · have htimers := (s.beforeStep ev).timersFrom_afterStep ev
    simpa only [State.timerGate_eq_true, State.beforeStep_faulted, hf, true_and, State.beforeStep_paused, State.beforeStep_dt,
      State.beforeStep_st] using htimers
  · simp [State.beforeStep_of_noEdge hnone]
  · intro k hk ha hedge hlow
    have hdone : (s.beforeStep ev).awaiting = false := (s.beforeStep_awaiting_eq_false ev).2 (.inr ⟨k, hk, hedge⟩)
    simp [State.toNat_reg_beforeStep_of_edge hk ha hedge hlow, hdone]
  · simp +contextual [State.afterStep_mem, State.reg_beforeStep_ne, hf]

/-- Settles O15: a wait without a press edge goes on, so the gate is closed and the phases before the executor write the keys and the
pause flag alone. -/
theorem awaitingMachineFetchesNothing : Obligations.AwaitingMachineFetchesNothing := by
  intro s ev hit hf ha hnone
  have hg : (s.beforeStep ev).stepGate ev = false := by
    rw [Bool.eq_false_iff, Ne, s.stepGate_beforeStep, ha]
    rintro ⟨-, hw | ⟨k, hk, hedge⟩, -⟩
    · cases hw
    · exact hnone k hk hedge
  obtain ⟨t, hstep, hframe, ⟨htick, hstay⟩, -⟩ := (executorGateFollowsTheTable s ev hit hf).2 hg
  rw [State.beforeStep_of_noEdge (.inr hnone)] at hframe
  exact ⟨t, hstep, hframe, fun h => hstay fun ⟨hp, hd⟩ => by simp [hp, hd] at h, fun hp hd => htick ⟨hp, hd⟩⟩

/-! ## Where the gate is open: the fetch, and the instruction (40_execution_cycle.md R91 to R97) -/

/-- Settles O8: a fetched word is its two bytes, the high one first. -/
theorem fetchIsBigEndian : Obligations.FetchIsBigEndian := fun _ => toNat_wordOfBytes _ _

theorem decodeBytes_readBytes (z : ZeroGroupDecode) (s : State) :
    decodeBytes z (s.mem.readBytes s.pc.toNat 2) = .ok (decode z s.fetchWord, []) := rfl

/-- Settles O7: the two bytes at PC are those of the fetched word, which its instruction encodes to. -/
theorem stepRunsTheDecodedInstruction : Obligations.StepRunsTheDecodedInstruction := by
  intro s ev i hit hf hg hp hi
  rw [decodeBytes_readBytes] at hi
  cases hi
  exact ⟨(everyWordDecodesAndReencodes _ _).2, step_of_runs ⟨hit, hf, hg⟩ hp⟩

/-- Settles O9: the fetch check enters FAULTED, so the timers do not tick. -/
theorem fetchAboveMemoryFaults : Obligations.FetchAboveMemoryFaults := by
  intro s ev hit hf hg hp
  rw [step_of_openGate hit hf hg, executorStep_above (by rwa [State.beforeStep_pc]), mapNext_next, State.afterStep_of_faulted ev rfl]
  simp [State.enterFaulted]

/-- Settles O10: the word decodes to the UNHANDLED row, and without a timer strobe the timers stay. -/
theorem unhandledWordIsANoOpWithAnEvent : Obligations.UnhandledWordIsANoOpWithAnEvent := by
  refine ⟨fun _ _ => rfl, fun s ev hruns htimer hp hw => ?_⟩
  rw [step_of_runs hruns hp, decode_of_isUnhandledWord hw, exec, execUnhandled, mapNext_next, State.afterStep_of_not_timerDue htimer]
  simp [State.atExecute, State.advance_eq]

/-- Settles O18: the instruction leaves the keys and the pause flag, and the open gate says that the machine is not paused. -/
theorem tickFollowsTheStep : Obligations.TickFollowsTheStep := by
  rintro s ev i u hruns hp rfl hexec
  have hstep := step_of_runs hruns hp
  rw [hexec, mapNext_next] at hstep
  obtain ⟨-, -, -, -, -, -, -, -, -, hkey, -, hpaused, -⟩ := eachElementHasItsWriters _ _ _ hexec
  have hkey : u.key = ev.keysIn := hkey.trans (s.beforeStep_key ev)
  have hpaused : u.paused = false := by
    obtain ⟨hp, -⟩ := (s.stepGate_beforeStep ev).1 hruns.2.2
    exact hpaused.trans ((s.beforeStep_paused ev).trans hp)
  refine ⟨_, hstep, ?_, State.consumeOp_afterStep hkey⟩
  have htimers := u.timersFrom_afterStep ev
  simpa only [State.timerGate_eq_true, hpaused, true_and, and_comm] using htimers

/-! ## The end of an iteration, and FAULTED (40_execution_cycle.md R101, R107) -/

theorem executorStep_key {s t : State} (h : executorStep s = .next t) : t.key = s.key := by
  rcases executorStep_cases h with ⟨a, rfl⟩ | ⟨-, he⟩
  · rfl
  · obtain ⟨-, -, -, -, -, -, -, -, -, hkey, -⟩ := eachElementHasItsWriters _ _ _ he
    exact hkey

theorem iterate_key {s t : State} {ev : Ev} (h : iterate ev s = .next t) : t.key = ev.keysIn ∧ t.prevKey = ev.keysIn := by
  rcases iterate_cases h with ⟨-, rfl⟩ | ⟨-, ⟨-, rfl⟩ | ⟨-, u, hu, rfl⟩⟩
  · exact ⟨rfl, rfl⟩
  · simp
  · simp [executorStep_key hu]

/-- Settles O12, in each of the ways an iteration can go. -/
theorem iterationEndsWithTheKeySample : Obligations.IterationEndsWithTheKeySample := by
  intro s t ev hit hstep
  rw [step_of_iterate hit.1 hit.2] at hstep
  obtain ⟨u, hu, rfl⟩ := next_of_mapNext hstep
  rw [State.consumeOp_key, State.consumeOp_prevKey]
  exact iterate_key hu

theorem step_of_faulted {s : State} {ev : Ev} (hf : s.faulted = true) (hit : s.Iterates ev) :
    step s = .next (State.consumeOp { s with key := ev.keysIn, prevKey := ev.keysIn, boot := .running }) := by
  rw [step_of_iterate hit.1 hit.2, iterate_faulted hf]
  rfl

/-- Settles O11: an iteration takes the key sample alone, and Load and the change of the rate leave the fault record. -/
theorem faultedMachineIsFrozen : Obligations.FaultedMachineIsFrozen := by
  intro s hf
  refine ⟨fun ev => step_of_faulted hf, fun t hstep hop => ?_⟩
  obtain ⟨u, rfl, hu⟩ := step_cases hstep
  rw [State.consumeOp_faulted]
  obtain ⟨ev, -, hi⟩ | ⟨hreset, -⟩ | ⟨file, -, -, rfl⟩ | ⟨hz, -, rfl⟩ := hu
  · rw [iterate_faulted hf] at hi
    cases hi
    exact hf
  · exact absurd hreset hop
  · rcases s.doLoad_cases file with ⟨b, hb⟩ | ⟨m, b, -, hb⟩
    · rw [hb]; exact hf
    · rw [hb]; exact hf
  · exact hf

end Sys2Proof.Machine
end

section
/-! SUPPORT. Endless runs (40_execution_cycle.md R111): every sequence of input records has a run, and under a fairness premise a machine
that stands still comes to the strobe it waits for. -/

namespace Sys2Proof.Machine

/-! ## Every sequence runs -/

/-- Every instruction has a next state. -/
theorem exec_next (i : Instr) (s : State) : ∃ t, exec i s = .next t := by
  cases i with
  | call a => rw [exec, execCall]; cases s.push s.nextPc <;> exact ⟨_, rfl⟩
  | ret nn => rw [exec, execRet]; cases s.pop <;> exact ⟨_, rfl⟩
  | skp x => rw [exec, execSkp]; cases s.keyPressed (s.reg x) <;> exact ⟨_, rfl⟩
  | sknp x => rw [exec, execSknp]; cases s.keyPressed (s.reg x) <;> exact ⟨_, rfl⟩
  | _ => exact ⟨_, rfl⟩

theorem executorStep_next (s : State) : ∃ t, executorStep s = .next t := by
  by_cases hp : s.pc.toNat ≤ 0x0FFE
  · rw [executorStep_fetch hp]; exact exec_next _ _
  · exact ⟨_, executorStep_above (by omega)⟩

/-- Every iteration that may run has a next state, from which an iteration may run again. -/
theorem step_next_of_iterates {s : State} {ev : Ev} (hit : s.Iterates ev) : ∃ t, step s = .next t ∧ t.boot.mayIterate = true := by
  cases hf : s.faulted with
  | true => exact ⟨_, step_of_faulted hf hit, by rw [State.consumeOp_boot]; rfl⟩
  | false =>
    cases hg : (s.beforeStep ev).stepGate ev with
    | false => exact ⟨_, step_of_closedGate hit hf hg, by rw [State.consumeOp_boot, State.afterStep_boot]; rfl⟩
    | true =>
      obtain ⟨u, hu⟩ := executorStep_next (s.beforeStep ev)
      refine ⟨(u.afterStep ev).consumeOp, ?_, by rw [State.consumeOp_boot, State.afterStep_boot]; rfl⟩
      rw [step_of_openGate hit hf hg, hu, mapNext_next]

/-- The state a step leads to; the state itself where the step is refused. -/
def State.stepped (s : State) : State :=
  match step s with
  | .next t => t
  | .fault _ | .refused _ => s

theorem State.stepped_eq {s t : State} (h : step s = .next t) : s.stepped = t := by rw [State.stepped, h]

/-- The states of the run from `s` on the input records `evs`. -/
def State.runOn (s : State) (evs : Nat → Ev) : Nat → State
  | 0 => s
  | n + 1 => ((s.runOn evs n).give (.iterate (evs n))).stepped

section runOn
variable {s : State} {evs : Nat → Ev}

theorem State.runOn_succ {n : Nat} (h : (s.runOn evs n).boot.mayIterate = true) :
    step ((s.runOn evs n).give (.iterate (evs n))) = .next (s.runOn evs (n + 1)) ∧
      (s.runOn evs (n + 1)).boot.mayIterate = true := by
  obtain ⟨t, ht, hb⟩ := step_next_of_iterates (s := (s.runOn evs n).give (.iterate (evs n))) ⟨rfl, h⟩
  rw [State.runOn, State.stepped_eq ht]
  exact ⟨ht, hb⟩

theorem State.runOn_mayIterate (h : s.boot.mayIterate = true) (n : Nat) : (s.runOn evs n).boot.mayIterate = true := by
  induction n with
  | zero => exact h
  | succ n ih => exact (State.runOn_succ ih).2

theorem State.run_runOn (h : s.boot.mayIterate = true) : Run evs (s.runOn evs) :=
  fun n => (State.runOn_succ (State.runOn_mayIterate h n)).1

end runOn

/-! ## One iteration of a run -/

theorem iterates_of_step {s t : State} {ev : Ev} (hop : s.pendingOp = .iterate ev) (h : step s = .next t) : s.Iterates ev := by
  obtain ⟨u, -, ⟨-, ⟨-, hb⟩, -⟩ | hother⟩ := step_cases h
  · exact ⟨hop, hb⟩
  · simp [hop] at hother

section run
variable {evs : Nat → Ev} {σ : Nat → State}

theorem Run.iterates (h : Run evs σ) (n : Nat) : ((σ n).give (.iterate (evs n))).Iterates (evs n) := iterates_of_step rfl (h n)

/-- The machine runs or waits, not paused and not faulted, with PC at `p`. -/
structure State.StandsAt (s : State) (waits : Bool) (p : Word) : Prop where
  faulted : s.faulted = false
  paused : s.paused = false
  awaiting : s.awaiting = waits
  pc : s.pc = p

theorem State.StandsAt.pausedNow {s : State} {w : Bool} {p : Word} {ev : Ev} (h : s.StandsAt w p) (hev : ev.pauseToggle = false) :
    s.pausedNow ev = false := by
  rw [State.pausedNow, h.paused, hev]; rfl

/-- The executor's gate of an iteration does not depend on the moves not yet made. -/
theorem State.stepGate_give (s : State) (ev : Ev) (op : HostOp) :
    ((s.give op).beforeStep ev).stepGate ev = (s.beforeStep ev).stepGate ev :=
  Bool.eq_iff_iff.2 (((s.give op).stepGate_beforeStep ev).trans (s.stepGate_beforeStep ev).symm)

/-- A running machine stands still through an iteration in which the executor does not run. -/
theorem Run.standsAt_succ (h : Run evs σ) {n : Nat} {p : Word} (hs : (σ n).StandsAt false p) (hev : (evs n).pauseToggle = false)
    (hg : ((σ n).beforeStep (evs n)).stepGate (evs n) = false) : (σ (n + 1)).StandsAt false p := by
  obtain ⟨t, ht, -, -, hwait, -, -, -, hpc, -, -, -, -, -, -, hf, -, hpaused, -⟩ :=
    (executorGateFollowsTheTable _ _ (h.iterates n) hs.faulted).2 ((State.stepGate_give _ _ _).trans hg)
  obtain rfl : σ (n + 1) = t := by rw [h n] at ht; cases ht; rfl
  exact ⟨hf, hpaused.trans (hs.pausedNow hev), (hwait (.inl hs.awaiting)).2.trans hs.awaiting, hpc.trans hs.pc⟩

/-- A waiting machine stands still through an iteration without a press edge, but for its timers. -/
theorem Run.standsAt_succ_of_wait (h : Run evs σ) {n : Nat} {p : Word} (hs : (σ n).StandsAt true p)
    (hev : (evs n).pauseToggle = false) (hnone : ∀ k, k < 16 → ¬ (σ n).Edge (evs n) k) :
    (σ (n + 1)).StandsAt true p ∧ (σ (n + 1)).TimersFrom ((evs n).timerDue = true) (σ n).dt (σ n).st := by
  have hnow : (σ n).pausedNow (evs n) = false := hs.pausedNow hev
  obtain ⟨t, ht, hframe, hstay, htick⟩ := awaitingMachineFetchesNothing _ _ (h.iterates n) hs.faulted hs.awaiting hnone
  obtain rfl : σ (n + 1) = t := by rw [h n] at ht; cases ht; rfl
  refine ⟨?_, htick hnow, fun hd => hstay (.inr (Bool.eq_false_iff.2 hd))⟩
  rw [hframe]
  constructor
  · exact (State.consumeOp_faulted _).trans hs.faulted
  · exact (State.consumeOp_paused _).trans hnow
  · exact (State.consumeOp_awaiting _).trans hs.awaiting
  · exact (State.consumeOp_pc _).trans hs.pc

/-! ## Progress under the fairness premises -/

/-- Under the fairness premise for `exec_due` the executor of a running machine runs: until then the machine stands still, and where the
strobe is 1 the gate is open. -/
theorem Run.executor_runs (h : Run evs σ) (hfair : FairExec evs) {n : Nat} (hno : NoToggleFrom evs n) {p : Word}
    (hs : (σ n).StandsAt false p) :
    ∃ m, n ≤ m ∧ (σ m).StandsAt false p ∧ ((σ m).beforeStep (evs m)).stepGate (evs m) = true := by
  by_contra hnever
  have hstands : ∀ m, n ≤ m → (σ m).StandsAt false p := by
    intro m hm
    induction m, hm using Nat.le_induction with
    | base => exact hs
    | succ m hm ih => exact h.standsAt_succ ih (hno m hm) (Bool.eq_false_iff.2 fun hg => hnever ⟨m, hm, ih, hg⟩)
  obtain ⟨m, hm, hdue⟩ := hfair n
  have hm' := hstands m hm
  exact hnever ⟨m, hm, hm', ((σ m).stepGate_beforeStep _).2 ⟨hm'.pausedNow (hno m hm), .inl hm'.awaiting, .inl hdue⟩⟩

/-- A machine that no key is pressed for goes on waiting. -/
theorem Run.goes_on_waiting (h : Run evs σ) {n : Nat} (hno : NoToggleFrom evs n)
    (hnone : ∀ m k, n ≤ m → k < 16 → ¬ (σ m).Edge (evs m) k) {p : Word} (hs : (σ n).StandsAt true p) {m : Nat} (hm : n ≤ m) :
    (σ m).StandsAt true p := by
  induction m, hm using Nat.le_induction with
  | base => exact hs
  | succ m hm ih => exact (h.standsAt_succ_of_wait ih (hno m hm) fun k => hnone m k hm).1

theorem State.TimersFrom.le {t : State} {ticks : Prop} {dt st : Word} (h : t.TimersFrom ticks dt st) :
    t.dt.toNat ≤ dt.toNat ∧ t.st.toNat ≤ st.toNat := by
  by_cases ht : ticks
  · obtain ⟨hdt, hst⟩ := h.1 ht; omega
  · obtain ⟨hdt, hst⟩ := h.2 ht; simp [hdt, hst]

section timers
variable {n : Nat} (h : ∀ m, n ≤ m → (σ (m + 1)).TimersFrom ((evs m).timerDue = true) (σ m).dt (σ m).st)
include h

theorem timers_antitone {m m' : Nat} (hm : n ≤ m) (hm' : m ≤ m') :
    (σ m').dt.toNat ≤ (σ m).dt.toNat ∧ (σ m').st.toNat ≤ (σ m).st.toNat := by
  induction m', hm' using Nat.le_induction with
  | base => exact ⟨le_rfl, le_rfl⟩
  | succ k hk ih =>
    obtain ⟨hdt, hst⟩ := (h k (hm.trans hk)).le
    omega

/-- Under the fairness premise for `timer_due` the timers lose any number of counts. -/
theorem timers_count_down (hfair : FairTimer evs) (d : Nat) :
    ∃ m, n ≤ m ∧ (σ m).dt.toNat ≤ (σ n).dt.toNat - d ∧ (σ m).st.toNat ≤ (σ n).st.toNat - d := by
  induction d with
  | zero => exact ⟨n, le_rfl, le_rfl, le_rfl⟩
  | succ d ih =>
    obtain ⟨m, hm, hdt, hst⟩ := ih
    obtain ⟨k, hk, hdue⟩ := hfair m
    obtain ⟨hkdt, hkst⟩ := timers_antitone h hm hk
    obtain ⟨htdt, htst⟩ := (h k (hm.trans hk)).1 hdue
    exact ⟨k + 1, by omega, by omega, by omega⟩

theorem timers_reach_zero (hfair : FairTimer evs) : ∃ m, n ≤ m ∧ (σ m).dt = 0 ∧ (σ m).st = 0 := by
  obtain ⟨m, hm, hdt, hst⟩ := timers_count_down h hfair ((σ n).dt.toNat + (σ n).st.toNat)
  exact ⟨m, hm, by bv_omega, by bv_omega⟩

end timers
end run

/-- Settles O60: the run is built step by step, and each fairness premise brings the strobe that a machine standing still waits for. -/
theorem everyStrobeSequenceRunsAndFairOnesProgress : Obligations.EveryStrobeSequenceRunsAndFairOnesProgress := by
  refine ⟨fun evs s hb => ⟨s.runOn evs, rfl, State.run_runOn hb⟩, ?_, ?_⟩
  · intro evs σ n hrun hfair hno hf hp ha
    obtain ⟨m, hm, hs, hg⟩ := hrun.executor_runs hfair hno ⟨hf, hp, ha, rfl⟩
    exact ⟨m, hm, hs.faulted, hg, hs.pc⟩
  · intro evs σ n hrun hfair hno hf hp ha hnone
    have hwaits : ∀ m, n ≤ m → (σ m).StandsAt true (σ n).pc := fun m hm =>
      hrun.goes_on_waiting hno hnone ⟨hf, hp, ha, rfl⟩ hm
    have htimers : ∀ m, n ≤ m → (σ (m + 1)).TimersFrom ((evs m).timerDue = true) (σ m).dt (σ m).st := fun m hm =>
      (hrun.standsAt_succ_of_wait (hwaits m hm) (hno m hm) fun k => hnone m k hm).2
    obtain ⟨m, hm, hdt, hst⟩ := timers_reach_zero htimers hfair
    exact ⟨m, hm, hdt, hst, (hwaits m hm).awaiting, (hwaits m hm).pc⟩

end Sys2Proof.Machine
end

section
/-! SUPPORT. The control-flow instructions of 41_control_flow.md: what a push, a pop, a conditional skip and the key lookup give where they
succeed and where they fail, and from it the statements on jumps, calls, returns and skips. -/

namespace Sys2Proof.Machine

/-! ## Jumps (41_control_flow.md R122, R128) -/

theorem toNat_jumpTarget (a : Addr) : (a.setWidth 16 : Word).toNat = a.toNat := by
  bv_omega

/-- A byte and a 12-bit address have a sum below 2^16. -/
theorem toNat_byte_add_jumpTarget (b : Byte) (a : Addr) : (b.setWidth 16 + a.setWidth 16 : Word).toNat = b.toNat + a.toNat := by
  bv_omega

/-- Settles O24: each jump writes PC alone, and its target is below 2^16. -/
theorem jumpsSetThePc : Obligations.JumpsSetThePc := fun _ a =>
  ⟨⟨_, rfl, rfl, toNat_jumpTarget a, fun _ => rfl⟩, ⟨_, rfl, rfl, toNat_byte_add_jumpTarget _ a, fun _ => rfl⟩⟩

/-! ## Calls and returns (41_control_flow.md R121, R123) -/

section stack
variable {s : State}

theorem exec_call_of_lt (a : Addr) (h : s.sp.val < 16) :
    exec (.call a) s =
      .next { s with stack := s.stack.set s.sp.val (s.pc + 2), sp := ⟨s.sp.val + 1, by omega⟩, pc := a.setWidth 16 } := by
  rw [exec, execCall, State.push_of_lt s _ h]
  rfl

theorem exec_call_full (a : Addr) (h : s.sp.val = 16) : exec (.call a) s = .next (s.faultedWith .stackOverflow 16) := by
  rw [exec, execCall, State.push_full s _ h]
  rfl

theorem exec_ret_of_pos (nn : Byte) (h : 0 < s.sp.val) :
    exec (.ret nn) s = .next { s with sp := ⟨s.sp.val - 1, by omega⟩, pc := s.stack[s.sp.val - 1] } := by
  rw [exec, execRet, State.pop_of_pos s h]

theorem exec_ret_empty (nn : Byte) (h : s.sp.val = 0) : exec (.ret nn) s = .next (s.faultedWith .stackUnderflow 0) := by
  rw [exec, execRet, State.pop_empty s h]
  rfl

end stack

/-- Settles O25: a call with a free slot writes the slot at SP, and no other. -/
theorem callPushesTheReturnAddress : Obligations.CallPushesTheReturnAddress := fun _ a =>
  ⟨fun h => ⟨_, exec_call_of_lt a h, rfl, fun _ => rfl, toNat_jumpTarget a, rfl, Vector.getElem_set_self h,
    fun _ hk hne => Vector.getElem_set_ne h hk hne.symm⟩, exec_call_full a⟩

/-- Settles O26: a return with a slot in use reads the slot below SP and writes none. -/
theorem returnPopsIntoThePc : Obligations.ReturnPopsIntoThePc := fun _ nn =>
  ⟨fun h => ⟨_, exec_ret_of_pos nn h, rfl, fun _ => rfl, rfl, rfl, rfl⟩, exec_ret_empty nn⟩

/-- Settles O27: the slot the return reads is the slot the call wrote. -/
theorem callThenReturnComesBack : Obligations.CallThenReturnComesBack := by
  intro s t a nn h hcall
  rw [exec_call_of_lt a h] at hcall
  obtain rfl := Host.Outcome.next.inj hcall
  exact ⟨_, exec_ret_of_pos nn (Nat.succ_pos _), rfl, Vector.getElem_set_self h, rfl,
    fun _ hk hne => Vector.getElem_set_ne h hk hne.symm⟩

/-! ## Conditional skips (41_control_flow.md R120) -/

section skips
variable (s : State) {c : Bool} {P : Prop} [Decidable P]

theorem State.skipIf_of_iff (h : c = true ↔ P) : s.skipIf c = { s with pc := if P then s.pc + 4 else s.pc + 2 } := by
  simp only [State.skipIf_eq, h]

theorem State.skipIf_not_of_iff (h : c = true ↔ P) : s.skipIf (!c) = { s with pc := if P then s.pc + 2 else s.pc + 4 } := by
  rw [State.skipIf_of_iff s (P := ¬ P) (by rw [← h, Bool.not_eq_true', Bool.not_eq_true]), ite_not]

end skips

/-- Settles O28: SE skips where the operands are equal, and SNE where they are not. -/
theorem skipsCompareRegisters : Obligations.SkipsCompareRegisters := fun s _ _ _ _ =>
  ⟨congrArg Host.Outcome.next (s.skipIf_of_iff beq_iff_eq),
    congrArg Host.Outcome.next (s.skipIf_not_of_iff beq_iff_eq),
    congrArg Host.Outcome.next (s.skipIf_of_iff beq_iff_eq),
    congrArg Host.Outcome.next (s.skipIf_not_of_iff beq_iff_eq)⟩

/-! ## Key skips (41_control_flow.md R129 to R131) -/

section keys
variable {s : State} {v : Byte}

theorem State.keyPressed_of_le (h : v.toNat ≤ 15) : s.keyPressed v = some (s.key.getLsbD v.toNat) := by
  have hkey : (v.setWidth 4 : Nibble).toNat = v.toNat := by bv_omega
  rw [State.keyPressed, if_pos h, State.keyHeld, hkey]

/-- The low nibble of a byte is the byte mod 16. -/
theorem toNat_lowNibble (v : Byte) : ((v &&& 0x0F).setWidth 4 : Nibble).toNat = v.toNat % 16 := by
  have hand : (v &&& 0x0F).toNat = v.toNat % 16 := (BitVec.toNat_and ..).trans (Nat.and_two_pow_sub_one_eq_mod v.toNat 4)
  rw [BitVec.toNat_setWidth, hand]
  exact Nat.mod_mod _ _

theorem State.keyPressed_of_mask (h : v.toNat > 15) (hp : s.params.keyIndexPolicy = .mask) :
    s.keyPressed v = some (s.key.getLsbD (v.toNat % 16)) := by
  rw [State.keyPressed, if_neg (Nat.not_le_of_gt h), hp]
  exact congrArg (some <| s.key.getLsbD ·) (toNat_lowNibble v)

theorem State.keyPressed_of_notPressed (h : v.toNat > 15) (hp : s.params.keyIndexPolicy = .notPressed) :
    s.keyPressed v = some false := by
  rw [State.keyPressed, if_neg (Nat.not_le_of_gt h), hp]

theorem State.keyPressed_of_fault (h : v.toNat > 15) (hp : s.params.keyIndexPolicy = .fault) : s.keyPressed v = none := by
  rw [State.keyPressed, if_neg (Nat.not_le_of_gt h), hp]

end keys

section keySkips
variable {s : State} {x : Reg}

/-- The key skips where the lookup answers a level. -/
theorem exec_keySkips_of_some {held : Bool} (h : s.keyPressed (s.reg x) = some held) :
    exec (.skp x) s = .next { s with pc := if held = true then s.pc + 4 else s.pc + 2 } ∧
    exec (.sknp x) s = .next { s with pc := if held = true then s.pc + 2 else s.pc + 4 } := by
  rw [exec, execSkp, exec, execSknp, h]
  exact ⟨congrArg Host.Outcome.next (s.skipIf_of_iff Iff.rfl), congrArg Host.Outcome.next (s.skipIf_not_of_iff Iff.rfl)⟩

/-- The key skips where the lookup raises KEY_INDEX. -/
theorem exec_keySkips_of_none (h : s.keyPressed (s.reg x) = none) :
    exec (.skp x) s = .next (s.faultedWith .keyIndex (s.reg x).toNat) ∧
    exec (.sknp x) s = .next (s.faultedWith .keyIndex (s.reg x).toNat) := by
  rw [exec, execSkp, exec, execSknp, h]
  exact ⟨rfl, rfl⟩

end keySkips

/-- Settles O29: each range of V[x] and each policy has its answer of the key lookup, and the skips follow the answer. -/
theorem keySkipsReadTheLevel : Obligations.KeySkipsReadTheLevel := by
  intro s x
  refine ⟨fun held hheld => exec_keySkips_of_some ?_, fun hv hp => exec_keySkips_of_none (State.keyPressed_of_fault hv hp)⟩
  rcases hheld with ⟨hv, rfl⟩ | ⟨hv, hp, rfl⟩ | ⟨hv, hp, rfl⟩
  · exact State.keyPressed_of_le hv
  · exact State.keyPressed_of_mask hv hp
  · exact State.keyPressed_of_notPressed hv hp

end Sys2Proof.Machine
end

section
/-! SUPPORT. The register and ALU instructions of 42_alu.md: the frame they share, what the register writes of an addition, a subtraction
and a shift leave, the flags and the shifted bytes as exact numbers, and from it the statements on loads, arithmetic, logic and RND. -/

namespace Sys2Proof.Machine

/-! ## The frame (00_scope.md R11, 40_execution_cycle.md R95) -/

section frame
variable {s u : State} {x : Reg} {i : Instr}

theorem sameRegsBut_setReg (s : State) (x : Reg) (b : Byte) : SameRegsBut [x] s (s.setReg x b) :=
  fun _ hr => s.reg_setReg_ne b (List.ne_of_not_mem_cons hr)

theorem sameRegsBut_setRegThenFlag (s : State) (x : Reg) (b : Byte) (c : Bool) : SameRegsBut [x, vf] s (s.setRegThenFlag x b c) := by
  intro r hr
  obtain ⟨hx, hvf⟩ : r ≠ x ∧ r ≠ vf := by simpa using hr
  rw [State.setRegThenFlag_reg _ _ _ _ hvf, if_neg hx]

theorem sameRegsBut_shiftReg (s : State) (x : Reg) (out : Byte → Bool) (value : Byte → Byte) :
    SameRegsBut [x, vf] s (s.shiftReg x out value) := by
  intro r hr
  obtain ⟨hx, hvf⟩ : r ≠ x ∧ r ≠ vf := by simpa using hr
  rw [State.shiftReg_reg _ _ _ _ hvf, if_neg hx]

/-- An instruction that writes general registers alone and then advances PC completes with its frame; `P` is what it says of the state
after it. -/
theorem exists_next_of_regs {l : List Reg} {P : State → Prop} (h : exec i s = .next u.advance) (hv : u = { s with v := u.v })
    (hl : SameRegsBut l s u) (hP : P u.advance) :
    ∃ t, exec i s = .next t ∧ OnlyRegsPc s t ∧ SameRegsBut l s t ∧ SameMem s t ∧ t.pc = s.pc + 2 ∧ P t := by
  refine ⟨_, h, ?_, hl, fun _ => ?_, ?_, hP⟩ <;> (rw [hv]; rfl)

theorem exists_next_of_setReg {b : Byte} {P : State → Prop} (h : exec i s = .next (s.setReg x b).advance)
    (hP : P (s.setReg x b).advance) :
    ∃ t, exec i s = .next t ∧ OnlyRegsPc s t ∧ SameRegsBut [x] s t ∧ SameMem s t ∧ t.pc = s.pc + 2 ∧ P t :=
  exists_next_of_regs h (s.setReg_eq x b) (sameRegsBut_setReg s x b) hP

theorem exists_next_of_setRegThenFlag {b : Byte} {c : Bool} {P : State → Prop}
    (h : exec i s = .next (s.setRegThenFlag x b c).advance) (hP : P (s.setRegThenFlag x b c).advance) :
    ∃ t, exec i s = .next t ∧ OnlyRegsPc s t ∧ SameRegsBut [x, vf] s t ∧ SameMem s t ∧ t.pc = s.pc + 2 ∧ P t :=
  exists_next_of_regs h (s.setRegThenFlag_eq x b c) (sameRegsBut_setRegThenFlag s x b c) hP

theorem exists_next_of_shiftReg {out : Byte → Bool} {value : Byte → Byte} {P : State → Prop}
    (h : exec i s = .next (s.shiftReg x out value).advance) (hP : P (s.shiftReg x out value).advance) :
    ∃ t, exec i s = .next t ∧ OnlyRegsPc s t ∧ SameRegsBut [x, vf] s t ∧ SameMem s t ∧ t.pc = s.pc + 2 ∧ P t :=
  exists_next_of_regs h (s.shiftReg_eq x out value) (sameRegsBut_shiftReg s x out value) hP

end frame

/-! ## What the writes leave in V[x] and VF -/

section writes
variable (s : State) {x : Reg} (b : Byte) (c : Bool) (out : Byte → Bool) (value : Byte → Byte)

theorem State.setRegThenFlag_reg_self (h : x ≠ vf) : (s.setRegThenFlag x b c).reg x = b := by
  rw [State.setRegThenFlag_reg _ _ _ _ h, if_pos rfl]

theorem State.shiftReg_reg_self (h : x ≠ vf) : (s.shiftReg x out value).reg x = value (s.reg x) := by
  rw [State.shiftReg_reg _ _ _ _ h, if_pos rfl]

theorem State.shiftReg_reg_vf_of_ne (h : x ≠ vf) : (s.shiftReg x out value).reg vf = flagByte (out (s.reg x)) := by
  rw [State.shiftReg_reg_vf, if_neg h]

theorem State.shiftReg_vf_reg_vf {order : ShiftVfOrder} (h : s.params.shiftVfOrder = order) :
    (s.shiftReg vf out value).reg vf = shiftOfVf order (out (s.reg vf)) value (s.reg vf) := by
  rw [State.shiftReg_reg_vf, if_pos rfl, h]

end writes

/-! ## Flags and bytes as exact numbers -/

section numbers
variable {legacy : Bool} (a b : Byte)

theorem toNat_flagByte_of_iff {c : Bool} {P : Prop} [Decidable P] (h : c = true ↔ P) : (flagByte c).toNat = if P then 1 else 0 := by
  simp only [flagByte, h]
  split <;> rfl

theorem toNat_flagByte (c : Bool) : (flagByte c).toNat = c.toNat := by
  cases c <;> rfl

theorem noBorrowFlag_iff :
    noBorrowFlag legacy a b = true ↔ if legacy = true then a.toNat > b.toNat else a.toNat ≥ b.toNat := by
  cases legacy <;> exact decide_eq_true_iff

/-- The difference of two bytes is the exact difference mod 256. -/
theorem toNat_sub_eq_emod : ((a - b).toNat : Int) = ((a.toNat : Int) - b.toNat) % 256 := by
  rw [BitVec.toNat_sub]
  omega

theorem toNat_flagByte_shrOut : (flagByte (shrOut a)).toNat = a.toNat % 2 := by
  rw [toNat_flagByte, shrOut, BitVec.getLsbD, Nat.toNat_testBit, pow_zero, Nat.div_one]

theorem toNat_flagByte_shlOut : (flagByte (shlOut a)).toNat = a.toNat / 128 := by
  rw [toNat_flagByte, shlOut, BitVec.getLsbD, Nat.toNat_testBit]
  omega

theorem toNat_shrValue : (shrValue a).toNat = a.toNat / 2 := by
  rw [shrValue, BitVec.toNat_ushiftRight, Nat.shiftRight_one]

theorem toNat_shlValue_of_left (h : legacy = false) : (shlValue legacy a).toNat = a.toNat * 2 % 256 := by
  subst h
  exact (BitVec.toNat_shiftLeft ..).trans (congrArg (· % 256) (Nat.shiftLeft_eq a.toNat 1))

theorem toNat_shlValue_of_legacy (h : legacy = true) : (shlValue legacy a).toNat = a.toNat / 2 := by
  subst h
  exact toNat_shrValue a

end numbers

theorem State.rand_of_iterate {s : State} {ev : Ev} (h : s.pendingOp = .iterate ev) : s.rand = ev.rndIn := by
  rw [State.rand, h]

/-! ## Loads, the immediate add, and logic (42_alu.md R141 to R146) -/

/-- Settles O30: each of the three is one register write, of its operand or of the sum. -/
theorem loadsAndImmediateAdd : Obligations.LoadsAndImmediateAdd := fun s x y kk =>
  ⟨exists_next_of_setReg rfl (s.reg_setReg_self x kk),
    exists_next_of_setReg rfl ((congrArg BitVec.toNat (s.reg_setReg_self x _)).trans (BitVec.toNat_add ..)),
    exists_next_of_setReg rfl (s.reg_setReg_self x (s.reg y))⟩

/-- Settles O31: each of the three is one register write, and the operations on bytes work bit by bit. -/
theorem bitwiseOperations : Obligations.BitwiseOperations := fun s x _ =>
  ⟨exists_next_of_setReg rfl fun k _ => (congrArg (·.getLsbD k) (s.reg_setReg_self x _)).trans BitVec.getLsbD_or,
    exists_next_of_setReg rfl fun k _ => (congrArg (·.getLsbD k) (s.reg_setReg_self x _)).trans BitVec.getLsbD_and,
    exists_next_of_setReg rfl fun k _ => (congrArg (·.getLsbD k) (s.reg_setReg_self x _)).trans BitVec.getLsbD_xor⟩

/-! ## Addition and subtraction with a flag (42_alu.md R147 to R150) -/

/-- Settles O32: the flag is written last, so it stands in VF whatever x is. -/
theorem addSetsTheCarry : Obligations.AddSetsTheCarry := by
  intro s x y
  refine exists_next_of_setRegThenFlag rfl ⟨fun hx => ?_, ?_⟩
  · rw [State.advance_reg, State.setRegThenFlag_reg_self _ _ _ hx]
    exact BitVec.toNat_add ..
  · rw [State.advance_reg, State.setRegThenFlag_reg_vf]
    exact toNat_flagByte_of_iff decide_eq_true_iff

/-- A subtraction a − b into V[x] with its no-borrow flag in VF: SUB and SUBN differ in which operand is a. -/
theorem exists_next_of_subtraction {i : Instr} {s : State} {x : Reg} {a b : Byte}
    (h : exec i s = .next (s.setRegThenFlag x (a - b) (noBorrowFlag s.params.legacyParity a b)).advance) :
    ∃ t, exec i s = .next t ∧ OnlyRegsPc s t ∧ SameRegsBut [x, vf] s t ∧ SameMem s t ∧ t.pc = s.pc + 2 ∧
      (x ≠ vf → ((t.reg x).toNat : Int) = ((a.toNat : Int) - b.toNat) % 256) ∧
      (t.reg vf).toNat = if (if s.params.legacyParity then a.toNat > b.toNat else a.toNat ≥ b.toNat) then 1 else 0 := by
  refine exists_next_of_setRegThenFlag h ⟨fun hx => ?_, ?_⟩
  · rw [State.advance_reg, State.setRegThenFlag_reg_self _ _ _ hx]
    exact toNat_sub_eq_emod a b
  · rw [State.advance_reg, State.setRegThenFlag_reg_vf]
    exact toNat_flagByte_of_iff (noBorrowFlag_iff a b)

/-- Settles O33: SUB is V[x] − V[y] and SUBN is V[y] − V[x]. -/
theorem subtractionsSetNoBorrow : Obligations.SubtractionsSetNoBorrow := fun _ _ _ =>
  ⟨exists_next_of_subtraction rfl, exists_next_of_subtraction rfl⟩

/-! ## Shifts (42_alu.md R151 to R154) -/

/-- Settles O34: x other than 0xF gets both writes; for x = 0xF each order of the writes leaves its own value. -/
theorem shiftRight : Obligations.ShiftRight := by
  intro s x y
  refine exists_next_of_shiftReg rfl ⟨fun hx => ⟨?_, ?_⟩, ?_, ?_, ?_⟩
  · rw [State.advance_reg, State.shiftReg_reg_self _ _ _ hx]
    exact toNat_shrValue _
  · rw [State.advance_reg, State.shiftReg_reg_vf_of_ne _ _ _ hx]
    exact toNat_flagByte_shrOut _
  · rintro rfl horder
    rw [State.advance_reg, State.shiftReg_vf_reg_vf _ _ _ horder]
    exact toNat_shrValue _
  · rintro rfl horder
    rw [State.advance_reg, State.shiftReg_vf_reg_vf _ _ _ horder, shiftOfVf, toNat_shrValue, toNat_flagByte_shrOut]
    omega
  · rintro rfl horder
    rw [State.advance_reg, State.shiftReg_vf_reg_vf _ _ _ horder]
    exact toNat_flagByte_shrOut _

/-- Settles O35: as for the right shift, where LEGACY_PARITY selects the byte written and not the flag. -/
theorem shiftLeft : Obligations.ShiftLeft := by
  intro s x y
  refine exists_next_of_shiftReg rfl ⟨fun hx => ?_, fun hx hleft => ?_, fun hx hlegacy => ?_, ?_, ?_, ?_⟩
  · rw [State.advance_reg, State.shiftReg_reg_vf_of_ne _ _ _ hx]
    exact toNat_flagByte_shlOut _
  · rw [State.advance_reg, State.shiftReg_reg_self _ _ _ hx]
    exact toNat_shlValue_of_left _ hleft
  · rw [State.advance_reg, State.shiftReg_reg_self _ _ _ hx]
    exact toNat_shlValue_of_legacy _ hlegacy
  · rintro rfl hleft horder
    rw [State.advance_reg, State.shiftReg_vf_reg_vf _ _ _ horder]
    exact toNat_shlValue_of_left _ hleft
  · rintro rfl hleft horder
    have := (s.reg vf).isLt
    rw [State.advance_reg, State.shiftReg_vf_reg_vf _ _ _ horder, shiftOfVf, toNat_shlValue_of_left _ hleft, toNat_flagByte_shlOut]
    omega
  · rintro rfl hleft horder
    rw [State.advance_reg, State.shiftReg_vf_reg_vf _ _ _ horder]
    exact toNat_flagByte_shlOut _

/-! ## The random byte (42_alu.md R155) -/

/-- Settles O36: while an iteration is pending, the random byte is the one of its record. -/
theorem randomIsTheMaskedDraw : Obligations.RandomIsTheMaskedDraw := by
  intro s ev x kk h
  have hx : (s.setReg x (s.rand &&& kk)).advance.reg x = ev.rndIn &&& kk := by
    rw [State.advance_reg, State.reg_setReg_self, State.rand_of_iterate h]
  refine exists_next_of_setReg rfl ⟨fun k _ => ?_, ?_, ?_⟩
  · rw [hx, BitVec.getLsbD_and]
  · rintro rfl
    exact hx.trans BitVec.and_zero
  · rintro rfl
    exact hx.trans BitVec.and_allOnes

end Sys2Proof.Machine
end

section
/-! SUPPORT. The index register and memory instructions of 43_index_memory.md: where the range checks pass and fail, the bytes of a stored
block, the decimal digits of a byte, and from it the statements on I, LD B and the register blocks. -/

namespace Sys2Proof.Machine

/-! ## The index register (43_index_memory.md R170 to R172) -/

theorem toNat_glyphAddr (b : Byte) : (glyphAddr b).toNat = 5 * (b.toNat % 16) := by
  rw [glyphAddr, Config.fontBase, BitVec.toNat_ofNat]
  omega

/-- ADD I adds the exact value of the byte mod 2^16. -/
theorem toNat_add_byte (a : Word) (b : Byte) : (a + b.setWidth 16).toNat = (a.toNat + b.toNat) % 65536 := by
  rw [BitVec.toNat_add, BitVec.toNat_setWidth_of_le (by decide)]

/-- Settles O37: each of the three writes I and advances PC, and its value is below 2^16 or taken mod 2^16. -/
theorem indexRegisterWrites : Obligations.IndexRegisterWrites := fun _ _ a =>
  ⟨⟨_, rfl, rfl, fun _ => rfl, toNat_jumpTarget a⟩,
    ⟨_, rfl, rfl, fun _ => rfl, toNat_add_byte _ _⟩,
    ⟨_, rfl, rfl, fun _ => rfl, toNat_glyphAddr _⟩⟩

/-! ## Where the range checks pass and fail (20_memory.md R55, R57) -/

section ranges
variable {s : State} {m : Nat}

/-- The first address above 0xFFF, as the checks report it. -/
theorem State.firstAbove_eq_max (s : State) : s.firstAbove = max s.i.toNat 0x1000 := by
  unfold State.firstAbove
  split <;> omega

theorem State.readFault_of_le (h : s.i.toNat + m ≤ 0xFFF) : s.readFault (m + 1) = none := by
  rw [State.readFault_eq, if_pos (by omega)]

theorem State.readFault_of_gt (h : s.i.toNat + m > 0xFFF) : s.readFault (m + 1) = some (.dataRange, s.firstAbove) := by
  rw [State.readFault_eq, if_neg (by omega), State.firstAbove_eq_max]

theorem State.writeFault_of_mayStore (h : s.MayStore (m + 1)) : s.writeFault (m + 1) = none := by
  obtain ⟨hrange, hfont⟩ := h
  rw [State.writeFault_eq s (Nat.succ_pos m), if_neg fun hf => Nat.not_le_of_gt (hfont hf.1) hf.2, if_pos hrange]

theorem State.writeFault_of_font (hp : s.params.fontWritePolicy = .fault) (hi : s.i.toNat ≤ 0x04F) :
    s.writeFault (m + 1) = some (.fontWrite, s.i.toNat) := by
  rw [State.writeFault_eq s (Nat.succ_pos m), if_pos ⟨hp, hi⟩]

/-- A block of at most 16 bytes that ends above 0xFFF begins above the font region. -/
theorem State.writeFault_of_gt (hm : m < 16) (h : s.i.toNat + m > 0xFFF) :
    s.writeFault (m + 1) = some (.dataRange, s.firstAbove) := by
  rw [State.writeFault_eq s (Nat.succ_pos m), if_neg (by omega), if_neg (by omega), State.firstAbove_eq_max]

/-- An instruction that stores `m` + 1 bytes at I: its effect `u`, or one of the two faults, each on its own range of I. -/
theorem exec_of_writeFault {i : Instr} {u : State} (hm : m < 16) (h : exec i s = .next (s.orRaise (s.writeFault (m + 1)) u)) :
    (s.MayStore (m + 1) → exec i s = .next u) ∧
    (s.params.fontWritePolicy = .fault → s.i.toNat ≤ 0x04F → exec i s = .next (s.faultedWith .fontWrite s.i.toNat)) ∧
    (s.i.toNat + m > 0xFFF → exec i s = .next (s.faultedWith .dataRange s.firstAbove)) := by
  rw [h]
  refine ⟨fun hmay => ?_, fun hp hi => ?_, fun hgt => ?_⟩
  · rw [State.writeFault_of_mayStore hmay, State.orRaise_none]
  · rw [State.writeFault_of_font hp hi]
    rfl
  · rw [State.writeFault_of_gt hm hgt]
    rfl

end ranges

/-! ## The bytes of a stored block -/

section blocks
variable {m : Memory} {bytes : List Byte}

theorem Memory.read_writeBytes_inside (hwf : m.wf = true) (a : Nat) {k : Nat} (hk : k < bytes.length) :
    (m.writeBytes a bytes).read (a + k) = bytes.getD k 0 := by
  rw [Memory.read_writeBytes hwf, if_pos (by omega), Nat.add_sub_cancel_left]

theorem Memory.read_writeBytes_outside (hwf : m.wf = true) {a b : Nat} (hb : b < a ∨ a + bytes.length ≤ b) :
    (m.writeBytes a bytes).read b = m.read b := by
  rw [Memory.read_writeBytes hwf, if_neg (by omega)]

end blocks

/-! ## LD B (43_index_memory.md R173) -/

/-- The three digits make the byte, and each is in its range. -/
theorem bcdDigits_spec (b : Byte) :
    ((bcdDigits b).getD 0 0).toNat * 100 + ((bcdDigits b).getD 1 0).toNat * 10 + ((bcdDigits b).getD 2 0).toNat = b.toNat ∧
      ((bcdDigits b).getD 0 0).toNat ≤ 2 ∧ ((bcdDigits b).getD 1 0).toNat ≤ 9 ∧ ((bcdDigits b).getD 2 0).toNat ≤ 9 := by
  have := b.isLt
  simp only [bcdDigits, List.getD_cons_zero, List.getD_cons_succ, BitVec.toNat_ofNat]
  omega

/-- Settles O38: the block is the three digits, and reading it at I, I + 1 and I + 2 gives them back. -/
theorem bcdStoresThreeDigits : Obligations.BcdStoresThreeDigits := by
  intro s x hwf
  obtain ⟨hstore, hfaults⟩ := exec_of_writeFault (i := .ldB x) (s := s) (m := 2) (by decide) rfl
  refine ⟨fun hmay => ⟨_, hstore hmay, rfl, rfl, ?_⟩, hfaults⟩
  have hread {k : Nat} (hk : k < 3) :
      (s.mem.writeBytes s.i.toNat (bcdDigits (s.reg x))).read (s.i.toNat + k) = (bcdDigits (s.reg x)).getD k 0 :=
    Memory.read_writeBytes_inside hwf _ hk
  have hdigits := bcdDigits_spec (s.reg x)
  rw [← hread (by decide : 0 < 3), ← hread (by decide : 1 < 3), ← hread (by decide : 2 < 3)] at hdigits
  obtain ⟨hsum, hhundreds, htens, hones⟩ := hdigits
  exact ⟨hsum, hhundreds, htens, hones, fun _ ha => Memory.read_writeBytes_outside hwf ha⟩

/-! ## Register blocks (43_index_memory.md R174, R175) -/

/-- Settles O39: the block is V0 to Vx, and address I + k of it reads V[k]. -/
theorem storeRegistersBlock : Obligations.StoreRegistersBlock := by
  intro s x hwf
  obtain ⟨hstore, hfaults⟩ := exec_of_writeFault (i := .storeRegs x) (s := s) x.isLt rfl
  refine ⟨fun hmay => ⟨_, hstore hmay, rfl, rfl, fun r hr => State.read_storedRegs hwf hr, fun a ha => ?_⟩, hfaults⟩
  refine Memory.read_writeBytes_outside hwf (ha.imp_right fun hgt => ?_)
  rw [State.length_regBlock]
  exact hgt

theorem exec_loadRegs_of_le {s : State} {x : Reg} (h : s.i.toNat + x.toNat ≤ 0xFFF) :
    exec (.loadRegs x) s = .next { s.advance with v := s.loadedRegs x } := by
  rw [exec, execLoadRegs, State.readFault_of_le h, State.orRaise_none]

theorem exec_loadRegs_of_gt {s : State} {x : Reg} (h : s.i.toNat + x.toNat > 0xFFF) :
    exec (.loadRegs x) s = .next (s.faultedWith .dataRange s.firstAbove) := by
  rw [exec, execLoadRegs, State.readFault_of_gt h]
  rfl

/-- Settles O40: where the block lies in memory each register up to x gets its byte, and the registers above x are read back. -/
theorem loadRegistersBlock : Obligations.LoadRegistersBlock := fun s x =>
  ⟨fun h => ⟨_, exec_loadRegs_of_le h, rfl, fun _ => rfl, rfl, s.loadedRegs_getElem x⟩, exec_loadRegs_of_gt⟩

end Sys2Proof.Machine
end

section
/-! SUPPORT. The display instructions of 44_display.md: the state DRW leaves where its sprite lies in memory, told by the pixels the sprite
covers, and from it the statements on CLS and DRW. -/

namespace Sys2Proof.Machine

/-- Settles O42: the display written is the clear one, and nothing else but PC is written. -/
theorem clearZeroesEveryPixel : Obligations.ClearZeroesEveryPixel := fun _ _ =>
  ⟨_, rfl, rfl, fun _ => rfl, Display.pixel_clear⟩

theorem flagByte_eq_one_iff {c : Bool} : flagByte c = 1 ↔ c = true := by
  cases c <;> decide

/-- The state after DRW where no row of the sprite lies above 0xFFF (44_display.md R192). -/
def State.drawn (s : State) (x y : Reg) (n : Nibble) : State :=
  { s.advance.setReg vf (flagByte (s.drawing x y n).collision) with fb := (s.drawing x y n).fb }

section drw
variable {s : State} {x y : Reg} {n : Nibble} {px : Fin 64} {py : Fin 32}

theorem exec_drw_eq : exec (.drw x y n) s = .next (s.orRaise (s.readFault n.toNat) (s.drawn x y n)) := rfl

theorem exec_drw_of_inMemory (h : n = 0 ∨ s.i.toNat + n.toNat ≤ 0x1000) : exec (.drw x y n) s = .next (s.drawn x y n) := by
  have hrows : n.toNat = 0 ∨ s.i.toNat + n.toNat ≤ 0x1000 := h.imp_left (congrArg BitVec.toNat)
  rw [exec_drw_eq, State.readFault_eq, if_pos hrows, State.orRaise_none]

theorem exec_drw_of_gt (hn : n ≠ 0) (h : s.i.toNat + n.toNat > 0x1000) :
    exec (.drw x y n) s = .next (s.faultedWith .dataRange s.firstAbove) := by
  have hpos : n.toNat ≠ 0 := fun h0 => hn (BitVec.eq_of_toNat_eq h0)
  rw [exec_drw_eq, State.readFault_eq, if_neg (by omega), State.firstAbove_eq_max]
  rfl

/-! ## The registers after DRW -/

theorem State.drawn_reg_of_ne {r : Reg} (h : r ≠ vf) : (s.drawn x y n).reg r = s.reg r :=
  s.advance.reg_setReg_ne _ h

theorem State.drawn_reg_vf : (s.drawn x y n).reg vf = flagByte (s.drawing x y n).collision :=
  s.advance.reg_setReg_self vf _

theorem State.drawing_collision_iff :
    (s.drawing x y n).collision = true ↔ ∃ px py, s.Covers x y n px py ∧ s.fb.pixel px py = true := by
  rw [(s.drawing_spec x y n).2, List.any_eq_true]
  simp only [Prod.exists, State.mem_drawnPoints]
  rfl

theorem State.drawn_reg_vf_eq_one_iff :
    (s.drawn x y n).reg vf = 1 ↔ ∃ px py, s.Covers x y n px py ∧ s.fb.pixel px py = true := by
  rw [State.drawn_reg_vf, flagByte_eq_one_iff, State.drawing_collision_iff]

theorem State.drawn_reg_vf_eq_zero (h : ¬ ∃ px py, s.Covers x y n px py ∧ s.fb.pixel px py = true) :
    (s.drawn x y n).reg vf = 0 := by
  rw [State.drawn_reg_vf, Bool.eq_false_of_not_eq_true (mt State.drawing_collision_iff.mp h)]
  rfl

/-! ## The pixels after DRW -/

theorem State.pixel_drawn_of_covers (h : s.Covers x y n px py) : (s.drawn x y n).fb.pixel px py = !s.fb.pixel px py := by
  refine ((s.drawing_spec x y n).1 px py).trans ?_
  rw [decide_eq_true (State.mem_drawnPoints.mpr h), Bool.xor_true]

theorem State.pixel_drawn_of_not_covers (h : ¬ s.Covers x y n px py) : (s.drawn x y n).fb.pixel px py = s.fb.pixel px py := by
  refine ((s.drawing_spec x y n).1 px py).trans ?_
  rw [decide_eq_false (mt State.mem_drawnPoints.mp h), Bool.xor_false]

/-- Settles O43: the pixels flipped are those of `State.drawing_spec`, and VF alone of the registers is written. -/
theorem drawXorsTheSprite : Obligations.DrawXorsTheSprite := fun s _ _ _ =>
  ⟨fun h => ⟨_, exec_drw_of_inMemory h, rfl, sameRegsBut_setReg s.advance vf _, fun _ => rfl, rfl,
    fun _ _ => ⟨State.pixel_drawn_of_covers, State.pixel_drawn_of_not_covers⟩,
    State.drawn_reg_vf_eq_one_iff.mpr, State.drawn_reg_vf_eq_zero⟩, exec_drw_of_gt⟩

/-! ## Drawing the same sprite again (44_display.md R194) -/

/-- DRW writes no coordinate register other than VF, so the sprite lies at the same place again. -/
theorem State.covers_drawn (hx : x ≠ vf) (hy : y ≠ vf) : (s.drawn x y n).Covers x y n px py ↔ s.Covers x y n px py := by
  unfold State.Covers
  rw [State.drawn_reg_of_ne hx, State.drawn_reg_of_ne hy]
  rfl

theorem State.drawn_drawn_fb (hx : x ≠ vf) (hy : y ≠ vf) : ((s.drawn x y n).drawn x y n).fb = s.fb := by
  refine Display.ext_pixel fun px py => ?_
  by_cases h : s.Covers x y n px py
  · rw [State.pixel_drawn_of_covers ((State.covers_drawn hx hy).mpr h), State.pixel_drawn_of_covers h, Bool.not_not]
  · rw [State.pixel_drawn_of_not_covers (mt (State.covers_drawn hx hy).mp h), State.pixel_drawn_of_not_covers h]

/-- A covered pixel is set after the first draw iff it was clear before it. -/
theorem State.drawn_drawn_reg_vf_eq_one_iff (hx : x ≠ vf) (hy : y ≠ vf) :
    ((s.drawn x y n).drawn x y n).reg vf = 1 ↔ ∃ px py, s.Covers x y n px py ∧ s.fb.pixel px py = false := by
  rw [State.drawn_reg_vf_eq_one_iff]
  refine exists_congr fun px => exists_congr fun py => ?_
  rw [State.covers_drawn hx hy]
  refine and_congr_right fun h => ?_
  rw [State.pixel_drawn_of_covers h, Bool.not_eq_true']

theorem State.exists_covers_iff :
    (∃ px py, s.Covers x y n px py) ↔ ∃ r c, r < n.toNat ∧ c < 8 ∧ s.spriteBit r c = true := by
  constructor
  · rintro ⟨_, _, r, c, hr, hc, hbit, -, -⟩
    exact ⟨r, c, hr, hc, hbit⟩
  · rintro ⟨r, c, hr, hc, hbit⟩
    exact ⟨Fin.ofNat 64 ((s.reg x).toNat % 64 + c), Fin.ofNat 32 ((s.reg y).toNat % 32 + r), r, c, hr, hc, hbit, rfl, rfl⟩

end drw

/-- Settles O44: the second draw flips the same pixels back, and on a clear display every covered pixel was clear. -/
theorem drawingTwiceRestoresTheDisplay : Obligations.DrawingTwiceRestoresTheDisplay := by
  intro s t x y n hx hy hmem h
  obtain rfl : s.drawn x y n = t := Host.Outcome.next.inj ((exec_drw_of_inMemory hmem).symm.trans h)
  have hvf := State.drawn_drawn_reg_vf_eq_one_iff (s := s) (n := n) hx hy
  refine ⟨_, exec_drw_of_inMemory hmem, State.drawn_drawn_fb hx hy, hvf, fun hclear => hvf.trans ?_⟩
  simp only [hclear, and_true, State.exists_covers_iff]

end Sys2Proof.Machine
end

section
/-! SUPPORT. The timer and key-wait instructions of 45_timer_key.md: what each writes, a step with a timer strobe whose word is the
encoding of an instruction, and from it the statements on Fx07, Fx0A, Fx15 and Fx18. -/

namespace Sys2Proof.Machine

/-! ## What the instructions write (45_timer_key.md R200 to R203) -/

/-- The low byte of a word is its value mod 256. -/
theorem toNat_lowByte (t : Word) : (t.setWidth 8 : Byte).toNat = t.toNat % 256 := BitVec.toNat_setWidth ..

/-- A timer holds the whole byte written to it. -/
theorem toNat_timerOfByte (b : Byte) : (b.setWidth 16 : Word).toNat = b.toNat := BitVec.toNat_setWidth_of_le (by decide)

/-- Settles O46: Fx07 is one register write, Fx15 and Fx18 each write one timer. -/
theorem timerInstructions : Obligations.TimerInstructions := fun s x =>
  ⟨exists_next_of_setReg rfl ((congrArg BitVec.toNat (s.reg_setReg_self x _)).trans (toNat_lowByte s.dt)),
    ⟨_, rfl, rfl, fun _ => rfl, toNat_timerOfByte _⟩,
    ⟨_, rfl, rfl, fun _ => rfl, toNat_timerOfByte _⟩⟩

/-- Settles O47: the meaning of Fx0A, with the advance of PC written out. -/
theorem keyWaitStarts : Obligations.KeyWaitStarts := fun s x => by
  rw [exec, execLdVxK, State.advance_eq]

/-! ## A step whose fetched word is the encoding of an instruction (40_execution_cycle.md R93 to R97, R106) -/

section encoded
variable {s u : State} {ev : Ev} {i : Instr}

theorem State.decode_fetchWord (hw : s.fetchWord = encode i) (hwf : i.wellFormed s.params.zeroGroupDecode = true) :
    decode s.params.zeroGroupDecode s.fetchWord = i := by
  rw [hw, decode_encode hwf]

/-- With a timer strobe, a step that does not fault keeps the registers its instruction left, and takes one off the DT it left. -/
theorem State.Runs.step_with_tick (hruns : s.Runs ev) (hdue : ev.timerDue = true) (hp : s.pc.toNat ≤ 0x0FFE)
    (hi : decode s.params.zeroGroupDecode s.fetchWord = i) (hexec : exec i (s.atExecute ev) = .next u) (hf : u.faulted = false) :
    ∃ t, step s = .next t ∧ t.v = u.v ∧ t.dt.toNat = u.dt.toNat - 1 := by
  obtain ⟨t, hstep, ⟨htick, -⟩, hframe⟩ := tickFollowsTheStep s ev i u hruns hp hi hexec
  exact ⟨t, hstep, by rw [hframe, State.consumeOp_v], (htick ⟨hdue, hf⟩).1⟩

theorem State.Runs.atExecute_faulted (hruns : s.Runs ev) : (s.atExecute ev).faulted = false := by
  obtain ⟨-, hf, -⟩ := hruns
  exact (s.beforeStep_faulted ev).trans hf

end encoded

/-- Settles O19: neither instruction faults, so the tick takes one off the DT that Fx15 wrote, or that Fx07 read. -/
theorem timerAccessSeesTheOldCount : Obligations.TimerAccessSeesTheOldCount := by
  intro s ev x hruns hdue hp
  have hf := hruns.atExecute_faulted
  refine ⟨fun hw => ?_, fun hw => ?_⟩
  · obtain ⟨t, hstep, -, hdt⟩ := hruns.step_with_tick hdue hp (State.decode_fetchWord hw rfl) rfl hf
    exact ⟨t, hstep, hdt.trans (congrArg (· - 1) (toNat_timerOfByte _))⟩
  · obtain ⟨t, hstep, hv, hdt⟩ := hruns.step_with_tick hdue hp (State.decode_fetchWord hw rfl) rfl hf
    have hreg : t.reg x = (s.atExecute ev).dt.setWidth 8 := (State.reg_congr hv x).trans (State.reg_setReg_self _ x _)
    have hold : (s.atExecute ev).dt = s.dt := s.beforeStep_dt ev
    exact ⟨t, hstep, by rw [hreg, hold, toNat_lowByte], hdt.trans (congrArg (·.toNat - 1) hold)⟩

/-! ## The key wait (45_timer_key.md R201, 40_execution_cycle.md R104, R107) -/

/-- Without a strobe that asks for a step the executor's gate is closed. -/
theorem State.stepGate_of_no_strobe (s : State) {ev : Ev} (hexec : ev.execDue = false) (hreq : ev.stepReq = false) :
    s.stepGate ev = false := by
  simp [State.stepGate, hexec, hreq]

/-- Settles O48: the phases after Fx0A change neither the wait nor the registers, and an iteration that resolves the wait without a
strobe is one behind a closed gate. -/
theorem keyWaitEndsWithTheKey : Obligations.KeyWaitEndsWithTheKey := by
  constructor
  · intro s ev x hit hf hg hp hw
    obtain ⟨t, hstep, -, hframe⟩ :=
      tickFollowsTheStep s ev _ _ ⟨hit, hf, hg⟩ hp (State.decode_fetchWord hw rfl) (keyWaitStarts _ x)
    refine ⟨t, hstep, ?_⟩
    rw [hframe]
    simp [State.atExecute, hf]
  · intro s ev k hit hf ha hexec hreq hk hedge hlow
    obtain ⟨u, hstep, -, -, -, hkey, -, -, hpc, hcur, -, -, -, -, -, -, -, -, hregs⟩ :=
      (executorGateFollowsTheTable s ev hit hf).2 (State.stepGate_of_no_strobe _ hexec hreq)
    obtain ⟨hreg, hdone⟩ := hkey k hk ha hedge hlow
    exact ⟨u, hstep, hreg, hdone, hpc, hcur, fun r hr => hregs r (List.ne_of_not_mem_cons hr)⟩

end Sys2Proof.Machine
end

section
/-! SUPPORT. The exceptions of 60_exceptions.md: which causes the checks can give, that an instruction or an executor step that faults
writes the fault record alone, and the timer unit. -/

namespace Sys2Proof.Machine

/-! ## The timer unit (60_exceptions.md R235) -/

/-- Settles O17: each timer counts down on its own, and the tick writes no other element. -/
theorem timersCountDownToZero : Obligations.TimersCountDownToZero := fun _ => ⟨toNat_countDown _, toNat_countDown _, rfl⟩

/-! ## The causes an instruction can raise (60_exceptions.md R224) -/

section causes
variable {s effect : State} {n : Nat} {c : FaultCause} {a : Nat}

theorem State.cause_of_readFault (h : s.readFault n = some (c, a)) : c = .dataRange := by
  rw [State.readFault_eq] at h
  split at h <;> cases h
  rfl

theorem State.cause_of_writeFault (hn : 0 < n) (h : s.writeFault n = some (c, a)) : c = .fontWrite ∨ c = .dataRange := by
  rw [State.writeFault_eq s hn] at h
  split at h
  · cases h; exact .inl rfl
  · split at h <;> cases h
    exact .inr rfl

/-- An instruction that checks a range first, and whose effect does not fault, faults only where a check fails. -/
theorem State.orRaise_faulted {failing : Option (FaultCause × Nat)} (ht : (s.orRaise failing effect).faulted = true)
    (he : ¬ effect.faulted = true) : ∃ c a, failing = some (c, a) ∧ s.orRaise failing effect = s.raise c a := by
  cases failing with
  | none => exact absurd ht he
  | some f => exact ⟨f.1, f.2, rfl, rfl⟩

end causes

/-- Settles O49: where a stack bound, the key lookup or a range check fails, the record is written with that check's cause; every effect
leaves `faulted` as it was. -/
theorem faultsArePreciseAndOfTheirKind : Obligations.FaultsArePreciseAndOfTheirKind := by
  intro i s t h hf ht
  have hno : ¬ s.faulted = true := by rw [hf]; exact Bool.false_ne_true
  cases i with
  | call a =>
    rcases Nat.lt_or_eq_of_le (Nat.le_of_lt_succ s.sp.isLt) with hsp | hsp
    · rw [exec_call_of_lt a hsp] at h; cases h; exact absurd ht hno
    · rw [exec_call_full a hsp] at h; cases h; exact ⟨rfl, rfl⟩
  | ret nn =>
    rcases Nat.eq_zero_or_pos s.sp.val with hsp | hsp
    · rw [exec_ret_empty nn hsp] at h; cases h; exact ⟨rfl, rfl⟩
    · rw [exec_ret_of_pos nn hsp] at h; cases h; exact absurd ht hno
  | skp x | sknp x =>
    simp only [exec, execSkp, execSknp] at h
    cases hk : s.keyPressed (s.reg x) with
    | none => rw [hk] at h; cases h; exact ⟨rfl, rfl⟩
    | some held => rw [hk] at h; cases h; exact absurd ht hno
  | drw | loadRegs =>
    obtain rfl := Host.Outcome.next.inj h
    obtain ⟨c, a, hfail, hraise⟩ := State.orRaise_faulted ht hno
    rw [hraise]
    exact ⟨rfl, State.cause_of_readFault hfail⟩
  | ldB | storeRegs =>
    obtain rfl := Host.Outcome.next.inj h
    obtain ⟨c, a, hfail, hraise⟩ := State.orRaise_faulted ht hno
    rw [hraise]
    exact ⟨rfl, State.cause_of_writeFault (Nat.succ_pos _) hfail⟩
  | shr | shl =>
    cases h
    rw [State.advance_faulted, State.shiftReg_eq] at ht
    exact absurd ht hno
  | cls | jp | jpV0 | seImm | sneImm | seReg | sneReg | ldImm | addImm | ldReg | orReg | andReg | xorReg | addReg | subReg | subnReg
  | rnd | ldI | addI | ldF | ldVxDt | ldVxK | ldDtVx | ldStVx | unhandled =>
    cases h
    exact absurd ht hno

/-! ## A step into FAULTED (60_exceptions.md R222, R223) -/

/-- An executor step that faults, in the fetch or in the instruction, writes the fault record and cur_instr alone. -/
theorem executorStep_faulted {s t : State} (h : executorStep s = .next t) (hf : s.faulted = false) (ht : t.faulted = true) :
    t = { s with
      curInstr := t.curInstr,
      faulted := true, faultCause := t.faultCause, faultPc := s.pc, faultWord := t.faultWord, faultAddr := t.faultAddr } := by
  rcases executorStep_cases h with ⟨a, rfl⟩ | ⟨-, he⟩
  · rfl
  · obtain ⟨hframe, -⟩ := faultsArePreciseAndOfTheirKind _ _ _ he hf ht
    rw [hframe]

/-- Settles O50: the executor writes the record and cur_instr, and after a fault the last phases write PrevKey without a tick. -/
theorem faultingStepCommitsNothing : Obligations.FaultingStepCommitsNothing := by
  intro s t ev hit hf hg hstep ht
  rw [step_of_openGate hit hf hg] at hstep
  obtain ⟨u, hu, rfl⟩ := next_of_mapNext hstep
  rw [State.consumeOp_faulted, State.afterStep_faulted] at ht
  have hframe := executorStep_faulted hu ((s.beforeStep_faulted ev).trans hf) ht
  rw [State.afterStep_of_faulted ev ht, hframe]
  simp

end Sys2Proof.Machine
end

section
/-! SUPPORT. The moves of the host outside an iteration (70_reset_and_hazards.md R250 to R257): what Reset and Load leave, where the boot
order refuses a move, and which moves change the place in that order. -/

namespace Sys2Proof.Machine

/-! ## The boot order (70_reset_and_hazards.md R255 to R257) -/

theorem Boot.mayLoad_iff {b : Boot} : b.mayLoad = true ↔ b = .fresh := by cases b <;> simp [Boot.mayLoad]

/-! ## The step of each move -/

section moves
variable {s : State}

theorem step_of_pendingOp {op : HostOp} (h : s.pendingOp = op) : step s = mapNext State.consumeOp (runOp op s) := by rw [step, h]

theorem step_of_reset (h : s.pendingOp = .reset) : step s = .next s.doReset.consumeOp := step_of_pendingOp h

theorem step_of_load {file : Option (List Byte)} (h : s.pendingOp = .load file) (hb : s.boot = .fresh) :
    step s = .next (s.doLoad file).consumeOp := by
  rw [step_of_pendingOp h, runOp, if_pos (Boot.mayLoad_iff.mpr hb), mapNext_next]

theorem step_of_load_refused {file : Option (List Byte)} (h : s.pendingOp = .load file) (hb : s.boot ≠ .fresh) :
    step s = .refused .loadOutsideWindow := by
  rw [step_of_pendingOp h, runOp, if_neg (mt Boot.mayLoad_iff.mp hb)]
  rfl

theorem step_of_iterate_fresh {ev : Ev} (h : s.pendingOp = .iterate ev) (hb : s.boot = .fresh) :
    step s = .refused .iterationBeforeLoad := by
  rw [step_of_pendingOp h, runOp, hb]
  rfl

theorem step_of_iterate_failed {ev : Ev} {e : LoadError} (h : s.pendingOp = .iterate ev) (hb : s.boot = .failed e) :
    step s = .refused (.iterationAfterFailedLoad e) := by
  rw [step_of_pendingOp h, runOp, hb]
  rfl

end moves

/-- Settles O54: move by move, and for an iteration and a Load by the place in the boot order. -/
theorem stepIsRefusedOnlyAtTheHostsFault : Obligations.StepIsRefusedOnlyAtTheHostsFault := by
  intro s
  cases hop : s.pendingOp with
  | iterate ev =>
    cases hb : s.boot with
    | fresh => exact .inr (.inr (.inl ⟨ev, rfl, rfl, step_of_iterate_fresh hop hb⟩))
    | failed e => exact .inr (.inl ⟨ev, e, rfl, rfl, step_of_iterate_failed hop hb⟩)
    | loaded | running =>
      obtain ⟨t, ht, -⟩ := step_next_of_iterates (s := s) (ev := ev) ⟨hop, by rw [hb]; rfl⟩
      exact .inl ⟨t, ht⟩
  | reset => exact .inl ⟨_, step_of_reset hop⟩
  | load file =>
    by_cases hb : s.boot = .fresh
    · exact .inl ⟨_, step_of_load hop hb⟩
    · exact .inr (.inr (.inr ⟨file, rfl, hb, step_of_load_refused hop hb⟩))
  | setCycleHz hz => exact .inl ⟨_, step_of_setCycleHz hop⟩

/-! ## Reset (70_reset_and_hazards.md R250, 10_state.md R41) -/

/-- Bytes that are what their addresses read as anyway add no cell to a memory without cells. -/
theorem Memory.writeBytes_nil_of_unlisted {a : Nat} {bytes : List Byte}
    (h : ∀ (k : Nat) (hk : k < bytes.length), bytes[k] = Memory.unlisted (a + k)) : Memory.writeBytes [] a bytes = [] := by
  induction bytes generalizing a with
  | nil => rfl
  | cons b bytes ih =>
    have hb : Memory.write [] a b = [] := if_pos (h 0 (Nat.zero_lt_succ _))
    rw [Memory.writeBytes, hb]
    refine ih fun k hk => ?_
    rw [Nat.add_right_comm]
    exact h (k + 1) (Nat.succ_lt_succ hk)

theorem Memory.afterReset_defaults : Memory.afterReset Config.defaults.fontGlyphs = [] := by
  refine Memory.writeBytes_nil_of_unlisted fun k hk => ?_
  rw [Vector.length_toList] at hk
  rw [Vector.getElem_toList, ← Memory.font_unlisted k hk, Memory.read_nil, Config.fontBase, Nat.zero_add]

theorem State.doReset_eq_reset {s : State} (hp : s.params = Config.defaults) (hhost : s.host = []) (hdraws : s.draws = 0)
    (hdiag : s.diag = []) : s.doReset = State.reset := by
  rw [State.doReset, hp, hhost, hdraws, hdiag, Memory.afterReset_defaults]
  rfl

theorem Memory.read_afterReset_above (g : Vector Byte 80) {a : Nat} (h : 80 ≤ a) : (Memory.afterReset g).read a = 0 := by
  rw [Memory.read_afterReset, dif_neg (by omega)]

/-- Settles O20: the step is `doReset`, whose fields are those of `State.reset` but for the memory and the fields it keeps. -/
theorem resetRestoresEveryElement : Obligations.ResetRestoresEveryElement := by
  refine ⟨fun s => State.doReset_eq_reset, fun s hop => ⟨_, step_of_reset hop, ?_⟩⟩
  have hregs (r : Reg) : State.reset.reg r = 0 := Vector.getElem_replicate _
  have hslots (k : Nat) (hk : k < 16) : State.reset.stack[k] = 0 := Vector.getElem_replicate _
  rw [State.consumeOp_eq]
  exact ⟨Memory.font_afterReset _, fun a ha _ => Memory.read_afterReset_above _ ha, hregs, rfl, rfl, hslots, rfl, Display.pixel_clear,
    rfl, rfl, rfl, rfl, rfl, rfl, rfl, rfl, rfl, rfl, rfl, rfl, rfl, rfl, rfl⟩

/-! ## Load (70_reset_and_hazards.md R255) -/

/-- Settles O21: the step is `doLoad`, and the memory is the old one with the program written at PROG_BASE. -/
theorem loadStoresTheProgram : Obligations.LoadStoresTheProgram := by
  intro s b hop hb hmem hlen
  have hstep : step s = .next (State.consumeOp { s with mem := s.mem.writeBytes 0x200 b, boot := .loaded }) := by
    rw [step_of_load hop hb, s.doLoad_ok hlen]
    rfl
  refine ⟨_, hstep, by rw [State.consumeOp_mem], fun k hk => ?_, fun a ha => ?_⟩
  · rw [State.consumeOp_mem, Memory.read_writeBytes_inside hmem.1 _ hk, List.getD_eq_getElem _ _ hk]
  · rw [State.consumeOp_mem, Memory.read_writeBytes_outside hmem.1 ha]

/-! ## Load errors (70_reset_and_hazards.md R256, R257) -/

/-- After a failed load neither an iteration nor a Load is made, and a change of CYCLE_HZ leaves `boot` as it is. -/
theorem boot_of_step_failed {s t : State} {e : LoadError} (hb : s.boot = .failed e) (h : step s = .next t)
    (hop : s.pendingOp ≠ .reset) : t.boot = .failed e := by
  obtain ⟨u, rfl, ⟨ev, ⟨-, hmay⟩, -⟩ | ⟨hreset, -⟩ | ⟨file, -, hmay, -⟩ | ⟨hz, -, rfl⟩⟩ := step_cases h
  · rw [hb] at hmay; cases hmay
  · exact absurd hreset hop
  · rw [hb] at hmay; cases hmay
  · exact (State.consumeOp_boot _).trans hb

theorem State.doLoad_mayIterate {s : State} {file : Option (List Byte)} (h : (s.doLoad file).boot.mayIterate = true) :
    ∃ b, file = some b ∧ b.length ≤ Config.maxRom := by
  cases file with
  | none => cases h
  | some b =>
    rcases Nat.lt_or_ge Config.maxRom b.length with hlen | hlen
    · rw [s.doLoad_tooLarge hlen] at h; cases h
    · exact ⟨b, rfl, hlen⟩

/-- Of the four moves only a Load that succeeds opens the way for iterations. -/
theorem load_of_step_mayIterate {s t : State} (hs : s.boot.mayIterate = false) (h : step s = .next t)
    (ht : t.boot.mayIterate = true) : s.boot = .fresh ∧ ∃ b, s.pendingOp = .load (some b) ∧ b.length ≤ Config.maxRom := by
  obtain ⟨u, rfl, hu⟩ := step_cases h
  rw [State.consumeOp_boot] at ht
  obtain ⟨ev, ⟨-, hmay⟩, -⟩ | ⟨-, rfl⟩ | ⟨file, hop, hmay, rfl⟩ | ⟨hz, -, rfl⟩ := hu
  · cases hs.symm.trans hmay
  · cases ht
  · obtain ⟨b, rfl, hlen⟩ := State.doLoad_mayIterate ht
    exact ⟨Boot.mayLoad_iff.mp hmay, b, hop, hlen⟩
  · cases hs.symm.trans ht

theorem boot_of_step_reset {s t : State} (hop : s.pendingOp = .reset) (h : step s = .next t) : t.boot = .fresh := by
  rw [step_of_reset hop] at h
  cases h
  exact State.consumeOp_boot _

/-- Settles O22: the two errors of `doLoad`, and the boot order's refusals and moves. -/
theorem failedLoadStopsTheRun : Obligations.FailedLoadStopsTheRun := by
  refine ⟨fun s b hop hb hlen => ?_, fun s hop hb => step_of_load hop hb, fun s e ev hb hop => step_of_iterate_failed hop hb,
    fun s t e => boot_of_step_failed, fun s t => boot_of_step_reset, fun s ev hb hop => step_of_iterate_fresh hop hb,
    fun s t => load_of_step_mayIterate⟩
  rw [step_of_load hop hb, s.doLoad_tooLarge hlen]

end Sys2Proof.Machine
end
